-- ==== Sys2Proof/Word.lean ====
section
/-! DEFINITION. The widths of the hardware (R3, R5): bytes, 16-bit words, 4-bit fields, 12-bit addresses. -/

namespace Sys2Proof

/-- An 8-bit value: a V register, a timer, a byte of memory, the field NN (R3 `XLEN`, R81). -/
abbrev Byte := BitVec 8

/-- A 16-bit value: I, pc, a stack slot, an instruction word (R3 `ALEN`, `ILEN`). -/
abbrev Word := BitVec 16

/-- A 4-bit field of an instruction word: X, Y or N (R81). -/
abbrev Nibble := BitVec 4

/-- The 12-bit field NNN (R81). -/
abbrev Addr12 := BitVec 12

end Sys2Proof
end

