-- ==== Sys2Proof/Config.lean ====
section
/-! DEFINITION. What is fixed for the machine (R3) and what the spec leaves open (R4): the random byte has no body; the
default font is the one R52 supplies. -/

namespace Sys2Proof.Config

/-- R3 `MEM_SIZE`: addresses 0 to 4095. -/
abbrev memSize : Nat := 4096

/-- R3 `PROG_BASE`: the load offset and the reset value of pc. -/
abbrev progBase : Nat := 512

/-- R3 `PROG_MAX`: the largest program in bytes. -/
abbrev progMax : Nat := 3584

/-- R3 `GLYPH_BYTES` and R52: glyph g stands at address 5 * g. -/
abbrev glyphBytes : Nat := 5

/-- R51: the font table fills [0, 80). -/
abbrev fontSize : Nat := 80

/-- R3 `STACK_DEPTH`. -/
abbrev stackDepth : Nat := 16

/-- R3 `DISP_H`. -/
abbrev dispRows : Nat := 32

/-- R3 `DISP_W`. -/
abbrev dispCols : Nat := 64

/-- R255, R4 `TICK_HZ`: the default tick rate. No rule reads it and the model has no time (log entry 13). -/
abbrev defaultTickHz : Nat := 60

/-- R151, D12 (log entry 3): the byte that the `n`-th execution of CXNN draws. A free value: it has no body, so nothing
can be proved of it and a statement about it holds for every sequence of bytes. -/
opaque randByte : Nat → Byte

/-- R52's default FONT, the glyphs 0 to F in order, five rows each. PRESUMED (log entry 5): the spec supplies it from
general knowledge; it is only the reset value of the state's own `font`. -/
def defaultFont : Vector Byte 80 := #v[
  0xF0, 0x90, 0x90, 0x90, 0xF0,  0x20, 0x60, 0x20, 0x20, 0x70,  0xF0, 0x10, 0xF0, 0x80, 0xF0,  0xF0, 0x10, 0xF0, 0x10, 0xF0,
  0x90, 0x90, 0xF0, 0x10, 0x10,  0xF0, 0x80, 0xF0, 0x10, 0xF0,  0xF0, 0x80, 0xF0, 0x90, 0xF0,  0xF0, 0x10, 0x20, 0x40, 0x40,
  0xF0, 0x90, 0xF0, 0x90, 0xF0,  0xF0, 0x90, 0xF0, 0x10, 0xF0,  0xF0, 0x90, 0xF0, 0x90, 0x90,  0xE0, 0x90, 0xE0, 0x90, 0xE0,
  0xF0, 0x80, 0x80, 0x80, 0xF0,  0xE0, 0x90, 0x90, 0x90, 0xE0,  0xF0, 0x80, 0xF0, 0x80, 0xF0,  0xF0, 0x80, 0xF0, 0x80, 0x80]

end Sys2Proof.Config
end

