-- ==== Sys2Proof/Syntax.lean ====
section
/-! DEFINITION. The 34 instructions (R86), one constructor per row of spec/opcode_table.json, with the fields of R81 at
their own widths, the six formats of R83, and the assembler spelling of R91. -/

namespace Sys2Proof

/-- The index of one of the sixteen general registers, as the fields X and Y name it (R20, R84). -/
abbrev Reg := Nibble

/-- One constructor per row of the opcode table, in the table's order (R86). -/
inductive Instr where
  /-- 00E0 -/
  | cls
  /-- 00EE -/
  | ret
  /-- 1NNN -/
  | jp (nnn : Addr12)
  /-- 2NNN -/
  | call (nnn : Addr12)
  /-- 3XNN -/
  | seVxNn (x : Reg) (nn : Byte)
  /-- 4XNN -/
  | sneVxNn (x : Reg) (nn : Byte)
  /-- 5XY0 -/
  | seVxVy (x y : Reg)
  /-- 6XNN -/
  | ldVxNn (x : Reg) (nn : Byte)
  /-- 7XNN -/
  | addVxNn (x : Reg) (nn : Byte)
  /-- 8XY0 -/
  | ldVxVy (x y : Reg)
  /-- 8XY1 -/
  | or (x y : Reg)
  /-- 8XY2 -/
  | and (x y : Reg)
  /-- 8XY3 -/
  | xor (x y : Reg)
  /-- 8XY4 -/
  | addVxVy (x y : Reg)
  /-- 8XY5 -/
  | sub (x y : Reg)
  /-- 8XY6 -/
  | shr (x y : Reg)
  /-- 8XY7 -/
  | subn (x y : Reg)
  /-- 8XYE -/
  | shl (x y : Reg)
  /-- 9XY0 -/
  | sneVxVy (x y : Reg)
  /-- ANNN -/
  | ldINnn (nnn : Addr12)
  /-- BNNN -/
  | jpV0 (nnn : Addr12)
  /-- CXNN -/
  | rnd (x : Reg) (nn : Byte)
  /-- DXYN -/
  | drw (x y : Reg) (n : Nibble)
  /-- EX9E -/
  | skp (x : Reg)
  /-- EXA1 -/
  | sknp (x : Reg)
  /-- FX07 -/
  | ldVxDt (x : Reg)
  /-- FX0A -/
  | ldVxK (x : Reg)
  /-- FX15 -/
  | ldDtVx (x : Reg)
  /-- FX18 -/
  | ldStVx (x : Reg)
  /-- FX1E -/
  | addIVx (x : Reg)
  /-- FX29 -/
  | ldFVx (x : Reg)
  /-- FX33 -/
  | ldBVx (x : Reg)
  /-- FX55 -/
  | ldMemVx (x : Reg)
  /-- FX65 -/
  | ldVxMem (x : Reg)
deriving DecidableEq, Repr

/-- The six formats of R83. -/
inductive Format where
  /-- `hhhh`: no field. -/
  | z
  /-- `hNNN`. -/
  | a
  /-- `hXNN`. -/
  | xk
  /-- `hXYh`. -/
  | xy
  /-- `hXYN`. -/
  | xyn
  /-- `hXhh`. -/
  | xs
deriving DecidableEq, Repr

/-- The format column of R86. -/
def Instr.format : Instr → Format
  | .cls | .ret => .z
  | .jp _ | .call _ | .ldINnn _ | .jpV0 _ => .a
  | .seVxNn _ _ | .sneVxNn _ _ | .ldVxNn _ _ | .addVxNn _ _ | .rnd _ _ => .xk
  | .seVxVy _ _ | .ldVxVy _ _ | .or _ _ | .and _ _ | .xor _ _ | .addVxVy _ _ | .sub _ _ | .shr _ _ | .subn _ _
  | .shl _ _ | .sneVxVy _ _ => .xy
  | .drw _ _ _ => .xyn
  | .skp _ | .sknp _ | .ldVxDt _ | .ldVxK _ | .ldDtVx _ | .ldStVx _ | .addIVx _ | .ldFVx _ | .ldBVx _ | .ldMemVx _
  | .ldVxMem _ => .xs

/-- `V0` to `VF`, the register's spelling in R91. -/
def regName (x : Reg) : String := "V" ++ String.singleton (Nat.digitChar x.toNat).toUpper

/-- The assembler spelling of R91 (names only; the hexadecimal patterns stay normative). -/
def Instr.asm : Instr → String
  | .cls => "CLS"
  | .ret => "RET"
  | .jp nnn => "JP " ++ toString nnn.toNat
  | .call nnn => "CALL " ++ toString nnn.toNat
  | .seVxNn x nn => "SE " ++ regName x ++ ", " ++ toString nn.toNat
  | .sneVxNn x nn => "SNE " ++ regName x ++ ", " ++ toString nn.toNat
  | .seVxVy x y => "SE " ++ regName x ++ ", " ++ regName y
  | .ldVxNn x nn => "LD " ++ regName x ++ ", " ++ toString nn.toNat
  | .addVxNn x nn => "ADD " ++ regName x ++ ", " ++ toString nn.toNat
  | .ldVxVy x y => "LD " ++ regName x ++ ", " ++ regName y
  | .or x y => "OR " ++ regName x ++ ", " ++ regName y
  | .and x y => "AND " ++ regName x ++ ", " ++ regName y
  | .xor x y => "XOR " ++ regName x ++ ", " ++ regName y
  | .addVxVy x y => "ADD " ++ regName x ++ ", " ++ regName y
  | .sub x y => "SUB " ++ regName x ++ ", " ++ regName y
  | .shr x y => "SHR " ++ regName x ++ ", " ++ regName y
  | .subn x y => "SUBN " ++ regName x ++ ", " ++ regName y
  | .shl x y => "SHL " ++ regName x ++ ", " ++ regName y
  | .sneVxVy x y => "SNE " ++ regName x ++ ", " ++ regName y
  | .ldINnn nnn => "LD I, " ++ toString nnn.toNat
  | .jpV0 nnn => "JP V0, " ++ toString nnn.toNat
  | .rnd x nn => "RND " ++ regName x ++ ", " ++ toString nn.toNat
  | .drw x y n => "DRW " ++ regName x ++ ", " ++ regName y ++ ", " ++ toString n.toNat
  | .skp x => "SKP " ++ regName x
  | .sknp x => "SKNP " ++ regName x
  | .ldVxDt x => "LD " ++ regName x ++ ", DT"
  | .ldVxK x => "LD " ++ regName x ++ ", K"
  | .ldDtVx x => "LD DT, " ++ regName x
  | .ldStVx x => "LD ST, " ++ regName x
  | .addIVx x => "ADD I, " ++ regName x
  | .ldFVx x => "LD F, " ++ regName x
  | .ldBVx x => "LD B, " ++ regName x
  | .ldMemVx x => "LD [I], " ++ regName x
  | .ldVxMem x => "LD " ++ regName x ++ ", [I]"

end Sys2Proof
end

