-- ==== Sys2Proof/WellFormed.lean ====
section
/-! DEFINITION. The checks on what is written down before it is encoded or loaded: operands given as naturals fit the
fields their format has (R81, R83, R84), and a program fits the program region (R51, R65). -/

namespace Sys2Proof

/-- The operand fields of R81 as plain naturals, before any width is imposed. -/
structure Operands where
  x : Nat
  y : Nat
  n : Nat
  nn : Nat
  nnn : Nat
deriving DecidableEq, Repr

/-- Each field that the format has (R83) is in its field's range (R84); a field the format lacks is not looked at. -/
def Operands.wf : Format → Operands → Bool
  | .z, _ => true
  | .a, o => decide (o.nnn < 4096)
  | .xk, o => decide (o.x < 16) && decide (o.nn < 256)
  | .xy, o => decide (o.x < 16) && decide (o.y < 16)
  | .xyn, o => decide (o.x < 16) && decide (o.y < 16) && decide (o.n < 16)
  | .xs, o => decide (o.x < 16)

/-- The operands of an instruction as naturals; a field the instruction lacks is 0. -/
def Instr.operands : Instr → Operands
  | .cls | .ret => ⟨0, 0, 0, 0, 0⟩
  | .jp nnn | .call nnn | .ldINnn nnn | .jpV0 nnn => ⟨0, 0, 0, 0, nnn.toNat⟩
  | .seVxNn x nn | .sneVxNn x nn | .ldVxNn x nn | .addVxNn x nn | .rnd x nn => ⟨x.toNat, 0, 0, nn.toNat, 0⟩
  | .seVxVy x y | .ldVxVy x y | .or x y | .and x y | .xor x y | .addVxVy x y | .sub x y | .shr x y | .subn x y
  | .shl x y | .sneVxVy x y => ⟨x.toNat, y.toNat, 0, 0, 0⟩
  | .drw x y n => ⟨x.toNat, y.toNat, n.toNat, 0, 0⟩
  | .skp x | .sknp x | .ldVxDt x | .ldVxK x | .ldDtVx x | .ldStVx x | .addIVx x | .ldFVx x | .ldBVx x | .ldMemVx x
  | .ldVxMem x => ⟨x.toNat, 0, 0, 0, 0⟩

/-- An instruction is well formed when its operands fit its format. The fields of `Instr` carry their widths, so this
holds of every `Instr` (Laws/Encoding.lean, `instr_wf`); the check refuses raw operands that do not fit. -/
def Instr.wf (i : Instr) : Bool := i.operands.wf i.format

/-- R65: a program of at most 3584 bytes may be loaded. -/
def programWf (bytes : List Byte) : Bool := decide (bytes.length ≤ Config.progMax)

end Sys2Proof
end

