-- ==== Sys2Proof/Decode.lean ====
section
/-! DEFINITION. The decoder, by mask and match as R85 and R86 say, total on any bytes and rejecting by name, and after it
the encoder. -/

namespace Sys2Proof

/-! ### The fields of an instruction word (R81, R82) -/

/-- OP, bits 15 to 12. -/
def fieldOp (w : Word) : Nibble := w.extractLsb' 12 4

/-- X, bits 11 to 8. -/
def fieldX (w : Word) : Reg := w.extractLsb' 8 4

/-- Y, bits 7 to 4. -/
def fieldY (w : Word) : Reg := w.extractLsb' 4 4

/-- N, bits 3 to 0. -/
def fieldN (w : Word) : Nibble := w.extractLsb' 0 4

/-- NN, bits 7 to 0. -/
def fieldNN (w : Word) : Byte := w.extractLsb' 0 8

/-- NNN, bits 11 to 0. -/
def fieldNNN (w : Word) : Addr12 := w.extractLsb' 0 12

/-! ### The opcode map (R86) -/

/-- One row of R86: a word is this row's instruction when `(w AND mask) = bits`. -/
structure Row where
  mask : Word
  bits : Word
  build : Word → Instr

/-- R85: the row selects the word. -/
def Row.selects (r : Row) (w : Word) : Bool := w &&& r.mask == r.bits

/-- The rows of families 0x0 to 0x7. -/
def rowsLow : List Row := [
  ⟨0xFFFF, 0x00E0, fun _ => .cls⟩,
  ⟨0xFFFF, 0x00EE, fun _ => .ret⟩,
  ⟨0xF000, 0x1000, fun w => .jp (fieldNNN w)⟩,
  ⟨0xF000, 0x2000, fun w => .call (fieldNNN w)⟩,
  ⟨0xF000, 0x3000, fun w => .seVxNn (fieldX w) (fieldNN w)⟩,
  ⟨0xF000, 0x4000, fun w => .sneVxNn (fieldX w) (fieldNN w)⟩,
  ⟨0xF00F, 0x5000, fun w => .seVxVy (fieldX w) (fieldY w)⟩,
  ⟨0xF000, 0x6000, fun w => .ldVxNn (fieldX w) (fieldNN w)⟩,
  ⟨0xF000, 0x7000, fun w => .addVxNn (fieldX w) (fieldNN w)⟩]

/-- The rows of family 0x8. -/
def rowsAlu : List Row := [
  ⟨0xF00F, 0x8000, fun w => .ldVxVy (fieldX w) (fieldY w)⟩,
  ⟨0xF00F, 0x8001, fun w => .or (fieldX w) (fieldY w)⟩,
  ⟨0xF00F, 0x8002, fun w => .and (fieldX w) (fieldY w)⟩,
  ⟨0xF00F, 0x8003, fun w => .xor (fieldX w) (fieldY w)⟩,
  ⟨0xF00F, 0x8004, fun w => .addVxVy (fieldX w) (fieldY w)⟩,
  ⟨0xF00F, 0x8005, fun w => .sub (fieldX w) (fieldY w)⟩,
  ⟨0xF00F, 0x8006, fun w => .shr (fieldX w) (fieldY w)⟩,
  ⟨0xF00F, 0x8007, fun w => .subn (fieldX w) (fieldY w)⟩,
  ⟨0xF00F, 0x800E, fun w => .shl (fieldX w) (fieldY w)⟩]

/-- The rows of families 0x9 to 0xE. -/
def rowsHigh : List Row := [
  ⟨0xF00F, 0x9000, fun w => .sneVxVy (fieldX w) (fieldY w)⟩,
  ⟨0xF000, 0xA000, fun w => .ldINnn (fieldNNN w)⟩,
  ⟨0xF000, 0xB000, fun w => .jpV0 (fieldNNN w)⟩,
  ⟨0xF000, 0xC000, fun w => .rnd (fieldX w) (fieldNN w)⟩,
  ⟨0xF000, 0xD000, fun w => .drw (fieldX w) (fieldY w) (fieldN w)⟩,
  ⟨0xF0FF, 0xE09E, fun w => .skp (fieldX w)⟩,
  ⟨0xF0FF, 0xE0A1, fun w => .sknp (fieldX w)⟩]

/-- The rows of family 0xF. -/
def rowsF : List Row := [
  ⟨0xF0FF, 0xF007, fun w => .ldVxDt (fieldX w)⟩,
  ⟨0xF0FF, 0xF00A, fun w => .ldVxK (fieldX w)⟩,
  ⟨0xF0FF, 0xF015, fun w => .ldDtVx (fieldX w)⟩,
  ⟨0xF0FF, 0xF018, fun w => .ldStVx (fieldX w)⟩,
  ⟨0xF0FF, 0xF01E, fun w => .addIVx (fieldX w)⟩,
  ⟨0xF0FF, 0xF029, fun w => .ldFVx (fieldX w)⟩,
  ⟨0xF0FF, 0xF033, fun w => .ldBVx (fieldX w)⟩,
  ⟨0xF0FF, 0xF055, fun w => .ldMemVx (fieldX w)⟩,
  ⟨0xF0FF, 0xF065, fun w => .ldVxMem (fieldX w)⟩]

/-- The 34 rows of R86, in the table's order. -/
def rows : List Row := rowsLow ++ rowsAlu ++ rowsHigh ++ rowsF

/-- R85: the instruction of the row that selects the word, or none (an unknown opcode, R87). The rows are disjoint
(Laws/Encoding.lean, `rows_disjoint`), so the order of the search does not matter. -/
def decodeWord (w : Word) : Option Instr := (rows.find? (fun r => r.selects w)).map (fun r => r.build w)

/-! ### Bytes (R55, R80) -/

/-- The word whose byte at the lower address is `hi` (R55). -/
def bytesWord (hi lo : Byte) : Word := hi ++ lo

/-- The two bytes of a word, the one at the lower address first (R55, R80). -/
def wordBytes (w : Word) : List Byte := [w.extractLsb' 8 8, w.extractLsb' 0 8]

/-- Why bytes are not an instruction. -/
inductive Reject where
  /-- No row of R86 selects the word (R87). -/
  | unknownOpcode (w : Word)
  /-- Fewer than the two bytes an instruction has (R80). -/
  | truncated
deriving DecidableEq, Repr

/-- Read one instruction off the front of a byte string; what follows it is given back. -/
def decodeBytes : List Byte → Except Reject (Instr × List Byte)
  | hi :: lo :: rest =>
    match decodeWord (bytesWord hi lo) with
    | some i => .ok (i, rest)
    | none => .error (.unknownOpcode (bytesWord hi lo))
  | _ => .error .truncated

/-- The instruction that the decoder reads from the word whose low `nbits` bits are `w`, laid out big-endian. -/
def decodeTableWord (nbits w : Nat) : Option Instr :=
  match decodeBytes (wordBytes (BitVec.ofNat 16 (w % 2 ^ nbits))) with
  | .ok (i, _) => some i
  | .error _ => none

/-! ### The encoder (R83, R86) -/

/-- Format A: `hNNN`. -/
def wordA (op : Nibble) (nnn : Addr12) : Word := op ++ nnn

/-- Format XK: `hXNN`. -/
def wordXK (op : Nibble) (x : Reg) (nn : Byte) : Word := op ++ x ++ nn

/-- Formats XY and XYN: `hXYh` and `hXYN`. -/
def wordXYN (op : Nibble) (x y : Reg) (n : Nibble) : Word := op ++ x ++ y ++ n

/-- The word of an instruction, from the patterns of R86. -/
def encode : Instr → Word
  | .cls => 0x00E0
  | .ret => 0x00EE
  | .jp nnn => wordA 0x1 nnn
  | .call nnn => wordA 0x2 nnn
  | .seVxNn x nn => wordXK 0x3 x nn
  | .sneVxNn x nn => wordXK 0x4 x nn
  | .seVxVy x y => wordXYN 0x5 x y 0x0
  | .ldVxNn x nn => wordXK 0x6 x nn
  | .addVxNn x nn => wordXK 0x7 x nn
  | .ldVxVy x y => wordXYN 0x8 x y 0x0
  | .or x y => wordXYN 0x8 x y 0x1
  | .and x y => wordXYN 0x8 x y 0x2
  | .xor x y => wordXYN 0x8 x y 0x3
  | .addVxVy x y => wordXYN 0x8 x y 0x4
  | .sub x y => wordXYN 0x8 x y 0x5
  | .shr x y => wordXYN 0x8 x y 0x6
  | .subn x y => wordXYN 0x8 x y 0x7
  | .shl x y => wordXYN 0x8 x y 0xE
  | .sneVxVy x y => wordXYN 0x9 x y 0x0
  | .ldINnn nnn => wordA 0xA nnn
  | .jpV0 nnn => wordA 0xB nnn
  | .rnd x nn => wordXK 0xC x nn
  | .drw x y n => wordXYN 0xD x y n
  | .skp x => wordXK 0xE x 0x9E
  | .sknp x => wordXK 0xE x 0xA1
  | .ldVxDt x => wordXK 0xF x 0x07
  | .ldVxK x => wordXK 0xF x 0x0A
  | .ldDtVx x => wordXK 0xF x 0x15
  | .ldStVx x => wordXK 0xF x 0x18
  | .addIVx x => wordXK 0xF x 0x1E
  | .ldFVx x => wordXK 0xF x 0x29
  | .ldBVx x => wordXK 0xF x 0x33
  | .ldMemVx x => wordXK 0xF x 0x55
  | .ldVxMem x => wordXK 0xF x 0x65

/-- The two bytes of an instruction as they stand in memory. -/
def encodeBytes (i : Instr) : List Byte := wordBytes (encode i)

end Sys2Proof
end

