-- ==== Sys2Proof/Machine/State.lean ====
section
/-! DEFINITION. The state of the core (10_state.md: R20 to R37) with the model's own input fields (R4), the reasons a step
can stop, and the state after reset. -/

namespace Sys2Proof.Machine

/-- R32, R218: the lifecycle state RUN. -/
inductive RunState where
  /-- Initial, after stop and after reset: no step happens. -/
  | idle
  /-- After start: one step per tick. -/
  | running
  /-- After a fault: no step happens until reset (R214). -/
  | faulted
deriving DecidableEq, Repr

/-- R201: what the cause field of FAULT holds; the code numbers are `Cause.code` in Machine/Ops.lean. -/
inductive Cause where
  /-- Code 0: no fault. -/
  | none
  /-- Code 1: a fetch beyond memory (R202). -/
  | decodeFault
  /-- Code 2: no row of the opcode map, or FX0A (R203). -/
  | unknownOpcode
  /-- Code 3: 2NNN with a full stack (R204). -/
  | stackOverflow
  /-- Code 4: 00EE with an empty stack (R205). -/
  | stackUnderflow
  /-- Code 5: a byte of a data transfer beyond memory (R206). -/
  | dataAccessFault
  /-- Code 6: the host answered a Render or a Beep with fail (R207). -/
  | rendererFault
  /-- Code 7: EX9E or EXA1 with Vx of 16 or more (R208). -/
  | keyIndexFault
deriving DecidableEq, Repr

/-- R33: the FAULT record. -/
structure FaultRecord where
  cause : Cause
  info : Word
deriving DecidableEq, Repr

/-- R28: 32 rows of 64 pixels; row 0 is the top row, column 0 the leftmost; true is set. -/
abbrev Display := Vector (Vector Bool 64) 32

/-- Every piece of state the spec gives the core (R36: there is no other), then the model's own fields. -/
structure State where
  /-- R20: V0 to VF; VF is `v[15]` (R21). -/
  v : Vector Byte 16
  /-- R22: the address register I. -/
  i : Word
  /-- R23: the program counter. -/
  pc : Word
  /-- R26: the number of stack entries in use, 0 to 16. -/
  sp : Fin 17
  /-- R26: the stack slots. -/
  stack : Vector Word 16
  /-- R28: the display buffer. -/
  disp : Display
  /-- R29: the delay timer. -/
  dt : Byte
  /-- R29: the sound timer. -/
  st : Byte
  /-- R30: the key latch; true is pressed. -/
  key : Vector Bool 16
  /-- R31: memory, as the cells that differ from the reset contents (`blank` in Machine/Memory.lean), addresses rising. -/
  mem : List Host.Cell
  /-- R32: RUN. -/
  run : RunState
  /-- R33: FAULT. -/
  fault : FaultRecord
  /-- R34: STOPREQ. -/
  stopReq : Bool
  /-- The model's own: the parameter FONT (R4, R52; log entry 5). No step and no command changes it. -/
  font : Vector Byte 80
  /-- The model's own: how many random bytes have been drawn (R151; log entry 3). -/
  draws : Nat
  /-- The model's own: how many Render events have been emitted (R184; log entry 4). -/
  renders : Nat
  /-- The model's own: the numbers of the Render events that the host answers fail (R4; log entry 4). -/
  renderFails : List Nat
  /-- The model's own: how many Beep events have been emitted (R106; log entry 4). -/
  beeps : Nat
  /-- The model's own: the numbers of the Beep events that the host answers fail (R4; log entry 4). -/
  beepFails : List Nat
deriving DecidableEq, Repr

/-- Why a step stops outside the spec's own fault state. It has no constructor: every failure the spec names leaves a state
the spec gives in full (R211, R212), so it is a next state with RUN = Faulted, not a stop of the model (log entry 1). -/
inductive Fault where
deriving DecidableEq, Repr

/-- Why the model gives no meaning. -/
inductive Refusal where
  /-- Raised by an arm of `exec` whose instruction has no meaning yet: none is left. Safe: nothing is claimed of it. -/
  | notModelled (mnemonic : String)
  /-- Raised by `hostLoad` when RUN is not Idle: R66 gives such a load no meaning. Safe: no claim follows from it. -/
  | loadOutsideIdle
deriving DecidableEq, Repr

/-- R37: the state after construction and after reset. The rows FAULT and STOPREQ are the spec's decisions D13 and D26; the
six fields after them are the model's own (log entries 3, 4, 5). -/
def State.reset : State where
  v := Vector.replicate 16 0
  i := 0
  pc := 512
  sp := 0
  stack := Vector.replicate 16 0
  disp := Vector.replicate 32 (Vector.replicate 64 false)
  dt := 0
  st := 0
  key := Vector.replicate 16 false
  mem := []
  run := .idle
  fault := ⟨.none, 0⟩
  stopReq := false
  font := Config.defaultFont
  draws := 0
  renders := 0
  renderFails := []
  beeps := 0
  beepFails := []

end Sys2Proof.Machine
end

