-- ==== Sys2Proof/Machine/Display.lean ====
section
/-! DEFINITION. The display primitives (R180, R181). -/

namespace Sys2Proof.Machine

/-- `DISP[r mod 32][c mod 64]`: the coordinates wrap independently (R181). -/
def pixel (d : Display) (r c : Nat) : Bool :=
  (d[r % 32]'(Nat.mod_lt _ (by decide)))[c % 64]'(Nat.mod_lt _ (by decide))

/-- `DISP[r mod 32][c mod 64] <- b`. -/
def setPixel (d : Display) (r c : Nat) (b : Bool) : Display :=
  d.set (r % 32) ((d[r % 32]'(Nat.mod_lt _ (by decide))).set (c % 64) b (Nat.mod_lt _ (by decide)))
    (Nat.mod_lt _ (by decide))

/-- R180: every pixel unset. -/
def clearedDisplay : Display := Vector.replicate 32 (Vector.replicate 64 false)

/-- R181: the bit of a sprite row at column `col`; column 0 is bit 7 (C5). -/
def spriteBit (b : Byte) (col : Nat) : Bool := b.getLsbD (7 - col)

/-- R181, the body of the inner loop: XOR one sprite bit into one pixel; the second component collects the collision. -/
def plot (acc : Display × Bool) (r c : Nat) (bit : Bool) : Display × Bool :=
  (setPixel acc.1 r c (pixel acc.1 r c ^^ bit), acc.2 || (pixel acc.1 r c && bit))

/-- R181, the inner loop: the 8 columns of one sprite row, from column `col` on. -/
def drawCols (acc : Display × Bool) (b : Byte) (x r : Nat) : List Nat → Display × Bool
  | [] => acc
  | col :: cols => drawCols (plot acc r (x + col) (spriteBit b col)) b x r cols

/-- R181, the outer loop: the sprite's rows from display row `r` on. -/
def drawRows (acc : Display × Bool) (x r : Nat) : List Byte → Display × Bool
  | [] => acc
  | b :: bs => drawRows (drawCols acc b x r [0, 1, 2, 3, 4, 5, 6, 7]) x (r + 1) bs

/-- R181 `DrawSprite(bytes, x, y)`: the display after it, and the collision flag it returns. -/
def drawSprite (d : Display) (bytes : List Byte) (x y : Nat) : Display × Bool := drawRows (d, false) x y bytes

end Sys2Proof.Machine
end

