-- ==== Sys2Proof/Machine/Memory.lean ====
section
/-! DEFINITION. Memory as a list of cells in canonical form (R31, R50, R51), and the one place where bytes are read and
written. -/

namespace Sys2Proof.Machine

/-- R37, R51: what an address that the list does not hold reads as: the reset contents, FONT in [0, 80) and 0 above. -/
def blank (font : Vector Byte 80) (a : Nat) : Byte := if h : a < 80 then font[a] else 0

/-- The byte of the first cell with this address. -/
def findCell : List Host.Cell → Nat → Option Byte
  | [], _ => none
  | c :: cs, a => if c.1 = a then some c.2 else findCell cs a

/-- Put a cell before the first cell with a larger address. -/
def insertCell (a : Nat) (b : Byte) : List Host.Cell → List Host.Cell
  | [] => [(a, b)]
  | c :: cs => if a < c.1 then (a, b) :: c :: cs else c :: insertCell a b cs

/-- `MEM[a]`, without any check (R5, R68). -/
def Memory.read (font : Vector Byte 80) (mem : List Host.Cell) (a : Nat) : Byte := (findCell mem a).getD (blank font a)

/-- `MEM[a] <- b`, without any check (R5, R68). Writing the reset contents removes the cell. -/
def Memory.write (font : Vector Byte 80) (mem : List Host.Cell) (a : Nat) (b : Byte) : List Host.Cell :=
  let others := mem.filter (fun c => c.1 ≠ a)
  if b = blank font a then others else insertCell a b others

/-- The bytes at `a`, `a + 1`, ..., in ascending order (R59). -/
def Memory.readMany (font : Vector Byte 80) (mem : List Host.Cell) : Nat → Nat → List Byte
  | _, 0 => []
  | a, n + 1 => Memory.read font mem a :: Memory.readMany font mem (a + 1) n

/-- Write the bytes at `a`, `a + 1`, ..., in ascending order (R59). -/
def Memory.writeMany (font : Vector Byte 80) (mem : List Host.Cell) : Nat → List Byte → List Host.Cell
  | _, [] => mem
  | a, b :: bs => Memory.writeMany font (Memory.write font mem a b) (a + 1) bs

/-- The canonical form: addresses strictly rising, inside memory (R50), and no cell that holds its reset contents. -/
abbrev Memory.wf (font : Vector Byte 80) (mem : List Host.Cell) : Prop :=
  mem.Pairwise (fun c d => c.1 < d.1) ∧ ∀ c ∈ mem, c.1 < Config.memSize ∧ c.2 ≠ blank font c.1

end Sys2Proof.Machine
end

