-- ==== Sys2Proof/Machine/Ops.lean ====
section
/-! DEFINITION. The named operations over the state: fault entry and reset, registers, checked memory access, the call
stack, the render event, and placing an instruction. -/

namespace Sys2Proof.Machine

/-! ### Taking a fault, and the one way out of it -/

/-- R201: the code numbers 0 to 7. -/
def Cause.code : Cause → BitVec 4
  | .none => 0
  | .decodeFault => 1
  | .unknownOpcode => 2
  | .stackOverflow => 3
  | .stackUnderflow => 4
  | .dataAccessFault => 5
  | .rendererFault => 6
  | .keyIndexFault => 7

/-- R211 `raise <Fault>(info)`: FAULT, RUN and STOPREQ are written and nothing else. Everything that raises a fault does
it through this one operation (log entry 1). -/
def raiseFault (s : State) (c : Cause) (info : Word) : State :=
  { s with fault := ⟨c, info⟩, run := .faulted, stopReq := false }

/-- R213, R221, R241: there is no return from a fault; reset, from any state, is the only way out. The parameter FONT and the
environment's event numbers and answers are not state of the core and stay (log entry 9). -/
def resetCore (s : State) : State :=
  { State.reset with
    font := s.font, draws := s.draws, renders := s.renders, renderFails := s.renderFails,
    beeps := s.beeps, beepFails := s.beepFails }

/-! ### Registers (R20 to R24) -/

/-- `V[x]`. -/
def readV (s : State) (x : Reg) : Byte := s.v[x.toNat]'x.isLt

/-- `V[x] <- b`. -/
def setV (s : State) (x : Reg) (b : Byte) : State := { s with v := s.v.set x.toNat b x.isLt }

/-- The index of VF (R21). -/
def vf : Reg := 0xF

/-- `I <- w`. -/
def setI (s : State) (w : Word) : State := { s with i := w }

/-- `pc <- w`. -/
def setPc (s : State) (w : Word) : State := { s with pc := w }

/-- R109 `Skip()`; also the advance of the fetch (R102). The 16-bit sum never wraps in a reachable state (R25, log entry 7). -/
def advancePc (s : State) : State := { s with pc := s.pc + 2 }

/-- R109: skip when the condition holds. -/
def skipIf (s : State) (c : Bool) : State := if c then advancePc s else s

/-- `DT <- b`. -/
def setDt (s : State) (b : Byte) : State := { s with dt := b }

/-- `ST <- b`. -/
def setSt (s : State) (b : Byte) : State := { s with st := b }

/-- `V[0], V[1], ... <- bytes`, ascending from register `k` (R165). -/
def setRegs (s : State) (k : Nat) : List Byte → State
  | [] => s
  | b :: bs => setRegs (setV s (BitVec.ofNat 4 k) b) (k + 1) bs

/-! ### Memory (R53, R54, R59, R60) -/

/-- R59, R60: every one of the `count` addresses from `base` on is inside memory; none is asked for when `count` is 0. The
sum is of naturals and does not wrap (R54). -/
def transferOk (base count : Nat) : Bool := decide (count = 0 ∨ base + count ≤ Config.memSize)

/-- One byte, by address; none outside memory. -/
def readByte (s : State) (a : Nat) : Option Byte :=
  if a < Config.memSize then some (Memory.read s.font s.mem a) else none

/-- R53, R59: read `count` bytes from `base` on; none if any address is outside memory. -/
def loadBytes (s : State) (base count : Nat) : Option (List Byte) :=
  if transferOk base count then some (Memory.readMany s.font s.mem base count) else none

/-- R53, R59: write the bytes from `base` on; none, and nothing written, if any address is outside memory. -/
def storeBytes (s : State) (base : Nat) (bytes : List Byte) : Option State :=
  if transferOk base bytes.length then some { s with mem := Memory.writeMany s.font s.mem base bytes } else none

/-- R59, R206: DataAccessFault, with the lowest offending address `max(I, 4096)` as info. -/
def raiseDataAccess (s : State) : State :=
  raiseFault s .dataAccessFault (BitVec.ofNat 16 (max s.i.toNat Config.memSize))

/-- R53, R55, R102: the word at pc, the byte at pc being bits 15 to 8; none if either address is outside memory. -/
def fetchWord (s : State) : Option Word :=
  if s.pc.toNat + 1 < Config.memSize then
    some (bytesWord (Memory.read s.font s.mem s.pc.toNat) (Memory.read s.font s.mem (s.pc.toNat + 1)))
  else none

/-! ### The call stack (R26, R27) -/

/-- R27 `Push(v)`; none when sp = 16. -/
def push (s : State) (w : Word) : Option State :=
  if h : s.sp.val < 16 then
    some { s with stack := s.stack.set s.sp.val w h, sp := ⟨s.sp.val + 1, by omega⟩ }
  else none

/-- R27 `Pop()`; none when sp = 0. The slot is not cleared. -/
def pop (s : State) : Option (Word × State) :=
  if h : 0 < s.sp.val then
    some (s.stack[s.sp.val - 1]'(by omega), { s with sp := ⟨s.sp.val - 1, by omega⟩ })
  else none

/-! ### The events of the core (R106, R184) and the random byte (R151) -/

/-- The host answers Render event number `n` with ok (R4, R184; log entry 4). -/
def renderOk (s : State) (n : Nat) : Bool := !s.renderFails.contains n

/-- The host answers Beep event number `n` with ok (R4, R106; log entry 4). -/
def beepOk (s : State) (n : Nat) : Bool := !s.beepFails.contains n

/-- R184 `emit Render(DISP)`: one event, whose grid is `disp` as it stands; on fail RendererFault(0). -/
def emitRender (s : State) : State :=
  if renderOk s s.renders then { s with renders := s.renders + 1 }
  else raiseFault { s with renders := s.renders + 1 } .rendererFault 0

/-- R151 `Rand()`: the next random byte, and the state that has drawn it. -/
def drawRandom (s : State) : Byte × State := (Config.randByte s.draws, { s with draws := s.draws + 1 })

/-! ### Placing an instruction -/

/-- The address an instruction is placed at: pc where a fetch can read two bytes there, else 512 (R243; log entry 8). -/
def placeAddress (s : State) : Word := if s.pc.toNat + 1 < Config.memSize then s.pc else 512

/-- The state whose next tick fetches the word `w`: its two bytes at pc, RUN = Running and no stop pending, as after load and
start (R65, R219, R244; log entries 2 and 8). -/
def placeWord (s : State) (w : Word) : State :=
  { s with
    pc := placeAddress s, run := .running, stopReq := false,
    mem := Memory.writeMany s.font s.mem (placeAddress s).toNat (wordBytes w) }

end Sys2Proof.Machine
end

