-- ==== Sys2Proof/Machine/Cycle.lean ====
section
/-! DEFINITION. What a step does around the execution of its instruction (40_step_cycle.md): the tick boundary, the fetch,
the short-circuit of a fault, the timer phase. -/

namespace Sys2Proof.Machine

/-- R105: `if DT != 0 then DT <- DT - 1`. -/
def tickDelay (s : State) : State := if s.dt = 0 then s else { s with dt := s.dt - 1 }

/-- R106: if ST is not 0, one Beep event; on ok ST is decremented, on fail RendererFault(1) and ST stays. -/
def tickSound (s : State) : State :=
  if s.st = 0 then s
  else if beepOk s s.beeps then { s with beeps := s.beeps + 1, st := s.st - 1 }
  else raiseFault { s with beeps := s.beeps + 1 } .rendererFault 1

/-- R101, the timer phase. -/
def timerPhase (s : State) : State := tickSound (tickDelay s)

/-- R104: a fault in the execute phase ends the step; otherwise the timer phase follows. -/
def afterExecute : Host.Outcome State Fault Refusal → Host.Outcome State Fault Refusal
  | .next t => .next (if t.run = .faulted then t else timerPhase t)
  | .fault r => .fault r
  | .refused r => .refused r

/-- R101 to R103: fetch, pc advanced by 2, dispatch, execute, timer phase. -/
def runCycle (execute : Instr → State → Host.Outcome State Fault Refusal) (s : State) :
    Host.Outcome State Fault Refusal :=
  match fetchWord s with
  | none => .next (raiseFault s .decodeFault s.pc)
  | some w =>
    match decodeWord w with
    | none => .next (raiseFault (advancePc s) .unknownOpcode w)
    | some i => afterExecute (execute i (advancePc s))

/-- R100, R218, R220: a tick. Idle and Faulted ignore it; a pending stop is honoured before a step would begin. -/
def tick (execute : Instr → State → Host.Outcome State Fault Refusal) (s : State) : Host.Outcome State Fault Refusal :=
  match s.run with
  | .idle => .next s
  | .faulted => .next s
  | .running => if s.stopReq then .next { s with run := .idle, stopReq := false } else runCycle execute s

end Sys2Proof.Machine
end

