-- ==== Sys2Proof/Machine/Flags.lean ====
section
/-! DEFINITION. What VF receives as a flag (R21): carry, not-borrow, the bit a shift moves out, the collision. -/

namespace Sys2Proof.Machine

/-- A flag as a register holds it: 1 or 0 (R21). -/
def flagByte (b : Bool) : Byte := if b then 1 else 0

/-- R146: the exact sum is 256 or more. -/
def carryOut (a b : Byte) : Bool := decide (256 ≤ a.toNat + b.toNat)

/-- R147, R149: no borrow in `a - b`. -/
def notBorrow (a b : Byte) : Bool := !decide (a.toNat < b.toNat)

/-- R148: bit 0, the bit a right shift moves out. -/
def lowBit (b : Byte) : Bool := b.getLsbD 0

/-- R150: bit 7, the bit a left shift moves out. -/
def highBit (b : Byte) : Bool := b.getLsbD 7

end Sys2Proof.Machine
end

