-- ==== Sys2Proof/Machine/Operands.lean ====
section
/-! DEFINITION. The operand forms: immediates and addresses (R84), the base of a transfer (R54), the registers of a
transfer (R164), the key number (R196), the glyph address (R162) and the decimal digits (R163). -/

namespace Sys2Proof.Machine

/-- R84: NNN zero-extended to 16 bits. -/
def zextAddr (nnn : Addr12) : Word := nnn.setWidth 16

/-- R5 `zext_16` of a byte. -/
def zextByte (b : Byte) : Word := b.setWidth 16

/-- R54: the base address of DXYN, FX33, FX55 and FX65, as an unbounded natural. -/
def baseAddress (s : State) : Nat := s.i.toNat

/-- R164: the count of FX55 and FX65 is the value of the X field itself. -/
def regCount (x : Reg) : Nat := x.toNat

/-- R164: V0 to V(X-1), ascending. -/
def firstRegs (s : State) (x : Reg) : List Byte := s.v.toList.take (regCount x)

/-- R164, R165: I advanced by the count. -/
def advanceI (s : State) (x : Reg) : State := setI s (s.i + BitVec.ofNat 16 (regCount x))

/-- R196: the key that the whole of Vx names; none for 16 or more. -/
def keyState (s : State) (x : Reg) : Option Bool :=
  if h : (readV s x).toNat < 16 then some (s.key[(readV s x).toNat]) else none

/-- R162: 5 times the whole byte (D23). -/
def glyphAddress (b : Byte) : Word := BitVec.ofNat 16 (Config.glyphBytes * b.toNat)

/-- R163: hundreds, tens, ones. -/
def bcdDigits (b : Byte) : List Byte :=
  [BitVec.ofNat 8 (b.toNat / 100), BitVec.ofNat 8 (b.toNat / 10 % 10), BitVec.ofNat 8 (b.toNat % 10)]

end Sys2Proof.Machine
end

