-- ==== Sys2Proof/Machine/Alu.lean ====
section
/-! DEFINITION. Register load, arithmetic, logic, shifts and random (42_alu.md). Effects happen in the order the rules list
them, each reading the registers as the previous one left them (R153; log entry 18). -/

namespace Sys2Proof.Machine

/-- 6XNN (R140). -/
def execLdVxNn (x : Reg) (nn : Byte) (s : State) : Host.Outcome State Fault Refusal := .next (setV s x nn)

/-- 7XNN (R141): no flag. -/
def execAddVxNn (x : Reg) (nn : Byte) (s : State) : Host.Outcome State Fault Refusal :=
  .next (setV s x (readV s x + nn))

/-- 8XY0 (R142). -/
def execLdVxVy (x y : Reg) (s : State) : Host.Outcome State Fault Refusal := .next (setV s x (readV s y))

/-- 8XY1 (R143): VF is left as it was (log entry 27). -/
def execOr (x y : Reg) (s : State) : Host.Outcome State Fault Refusal := .next (setV s x (readV s x ||| readV s y))

/-- 8XY2 (R144). -/
def execAnd (x y : Reg) (s : State) : Host.Outcome State Fault Refusal := .next (setV s x (readV s x &&& readV s y))

/-- 8XY3 (R145). -/
def execXor (x y : Reg) (s : State) : Host.Outcome State Fault Refusal := .next (setV s x (readV s x ^^^ readV s y))

/-- Write a result to Vx and then a flag to VF, which wins when x is F (R146, R147, R149, R153). -/
def setResultThenFlag (s : State) (x : Reg) (result : Byte) (flag : Bool) : State :=
  setV (setV s x result) vf (flagByte flag)

/-- 8XY4 (R146). -/
def execAddVxVy (x y : Reg) (s : State) : Host.Outcome State Fault Refusal :=
  .next (setResultThenFlag s x (readV s x + readV s y) (carryOut (readV s x) (readV s y)))

/-- 8XY5 (R147). -/
def execSub (x y : Reg) (s : State) : Host.Outcome State Fault Refusal :=
  .next (setResultThenFlag s x (readV s x - readV s y) (notBorrow (readV s x) (readV s y)))

/-- 8XY7 (R149). -/
def execSubn (x y : Reg) (s : State) : Host.Outcome State Fault Refusal :=
  .next (setResultThenFlag s x (readV s y - readV s x) (notBorrow (readV s y) (readV s x)))

/-- The shifts: the flag to VF, then Vy shifted in place (read after the flag was written), then Vx from Vy (R153). -/
def shiftInPlace (s : State) (x y : Reg) (flag : Bool) (shift : Byte → Byte) : State :=
  let s1 := setV s vf (flagByte flag)
  let s2 := setV s1 y (shift (readV s1 y))
  setV s2 x (readV s2 y)

/-- 8XY6 (R148): Vy, not Vx, is shifted. -/
def execShr (x y : Reg) (s : State) : Host.Outcome State Fault Refusal :=
  .next (shiftInPlace s x y (lowBit (readV s y)) (fun b => b >>> 1))

/-- 8XYE (R150): Vy, not Vx, is shifted. -/
def execShl (x y : Reg) (s : State) : Host.Outcome State Fault Refusal :=
  .next (shiftInPlace s x y (highBit (readV s y)) (fun b => b <<< 1))

/-- CXNN (R151): the byte drawn is a free value (log entry 3). -/
def execRnd (x : Reg) (nn : Byte) (s : State) : Host.Outcome State Fault Refusal :=
  .next (setV (drawRandom s).2 x ((drawRandom s).1 &&& nn))

end Sys2Proof.Machine
end

