-- ==== Sys2Proof/Machine/Control.lean ====
section
/-! DEFINITION. Control transfer (41_control_flow.md). Every meaning runs with pc already advanced past the instruction
(R24, R103; log entry 12). -/

namespace Sys2Proof.Machine

/-- 00EE (R120). -/
def execRet (s : State) : Host.Outcome State Fault Refusal :=
  match pop s with
  | some (target, t) => .next (setPc t target)
  | none => .next (raiseFault s .stackUnderflow (encode .ret))

/-- 1NNN (R121). -/
def execJp (nnn : Addr12) (s : State) : Host.Outcome State Fault Refusal := .next (setPc s (zextAddr nnn))

/-- 2NNN (R122). -/
def execCall (nnn : Addr12) (s : State) : Host.Outcome State Fault Refusal :=
  match push s s.pc with
  | some t => .next (setPc t (zextAddr nnn))
  | none => .next (raiseFault s .stackOverflow (encode (.call nnn)))

/-- BNNN (R123): the sum is not reduced to 12 bits (log entry 26). -/
def execJpV0 (nnn : Addr12) (s : State) : Host.Outcome State Fault Refusal :=
  .next (setPc s (zextAddr nnn + zextByte (readV s 0)))

/-- 3XNN (R124). -/
def execSeVxNn (x : Reg) (nn : Byte) (s : State) : Host.Outcome State Fault Refusal :=
  .next (skipIf s (readV s x == nn))

/-- 4XNN (R125). -/
def execSneVxNn (x : Reg) (nn : Byte) (s : State) : Host.Outcome State Fault Refusal :=
  .next (skipIf s (readV s x != nn))

/-- 5XY0 (R126). -/
def execSeVxVy (x y : Reg) (s : State) : Host.Outcome State Fault Refusal :=
  .next (skipIf s (readV s x == readV s y))

/-- 9XY0 (R127). -/
def execSneVxVy (x y : Reg) (s : State) : Host.Outcome State Fault Refusal :=
  .next (skipIf s (readV s x != readV s y))

end Sys2Proof.Machine
end

