-- ==== Sys2Proof/Machine/Index.lean ====
section
/-! DEFINITION. The address register and the memory transfers (43_index_memory.md). -/

namespace Sys2Proof.Machine

/-- ANNN (R160). -/
def execLdINnn (nnn : Addr12) (s : State) : Host.Outcome State Fault Refusal := .next (setI s (zextAddr nnn))

/-- FX1E (R161): modulo 65536, no flag (log entry 17). -/
def execAddIVx (x : Reg) (s : State) : Host.Outcome State Fault Refusal :=
  .next (setI s (s.i + zextByte (readV s x)))

/-- FX29 (R162): the whole byte is multiplied (log entry 24). -/
def execLdFVx (x : Reg) (s : State) : Host.Outcome State Fault Refusal := .next (setI s (glyphAddress (readV s x)))

/-- FX33 (R163): I is not changed. -/
def execLdBVx (x : Reg) (s : State) : Host.Outcome State Fault Refusal :=
  match storeBytes s (baseAddress s) (bcdDigits (readV s x)) with
  | some t => .next t
  | none => .next (raiseDataAccess s)

/-- FX55 (R164): the count is X, register Vx is not stored (log entry 28). -/
def execLdMemVx (x : Reg) (s : State) : Host.Outcome State Fault Refusal :=
  match storeBytes s (baseAddress s) (firstRegs s x) with
  | some t => .next (advanceI t x)
  | none => .next (raiseDataAccess s)

/-- FX65 (R165): the count is X, register Vx is not loaded (log entry 28). -/
def execLdVxMem (x : Reg) (s : State) : Host.Outcome State Fault Refusal :=
  match loadBytes s (baseAddress s) (regCount x) with
  | some bytes => .next (advanceI (setRegs s 0 bytes) x)
  | none => .next (raiseDataAccess s)

end Sys2Proof.Machine
end

