-- ==== Sys2Proof/Machine/Keypad.lean ====
section
/-! DEFINITION. The key skips, the key wait and the timer accesses (45_keypad_timers.md). -/

namespace Sys2Proof.Machine

/-- R196, R208: KeyIndexFault(Vx). -/
def raiseKeyIndex (s : State) (x : Reg) : State := raiseFault s .keyIndexFault (zextByte (readV s x))

/-- EX9E (R190). -/
def execSkp (x : Reg) (s : State) : Host.Outcome State Fault Refusal :=
  match keyState s x with
  | some pressed => .next (skipIf s pressed)
  | none => .next (raiseKeyIndex s x)

/-- EXA1 (R191). -/
def execSknp (x : Reg) (s : State) : Host.Outcome State Fault Refusal :=
  match keyState s x with
  | some pressed => .next (skipIf s (!pressed))
  | none => .next (raiseKeyIndex s x)

/-- FX07 (R192). -/
def execLdVxDt (x : Reg) (s : State) : Host.Outcome State Fault Refusal := .next (setV s x s.dt)

/-- FX0A (R193): its effect is to raise UnknownOpcode, on every execution (log entry 20). -/
def execLdVxK (x : Reg) (s : State) : Host.Outcome State Fault Refusal :=
  .next (raiseFault s .unknownOpcode (encode (.ldVxK x)))

/-- FX15 (R194). -/
def execLdDtVx (x : Reg) (s : State) : Host.Outcome State Fault Refusal := .next (setDt s (readV s x))

/-- FX18 (R195). -/
def execLdStVx (x : Reg) (s : State) : Host.Outcome State Fault Refusal := .next (setSt s (readV s x))

end Sys2Proof.Machine
end

