-- ==== Sys2Proof/Machine/Screen.lean ====
section
/-! DEFINITION. The display instructions (44_display.md). -/

namespace Sys2Proof.Machine

/-- 00E0 (R182): clear, then notify the renderer. -/
def execCls (s : State) : Host.Outcome State Fault Refusal := .next (emitRender { s with disp := clearedDisplay })

/-- The display and VF after a sprite was drawn (R183): the coordinates are read before VF is written (log entry 25). -/
def drawn (s : State) (x y : Reg) (bytes : List Byte) : State :=
  let r := drawSprite s.disp bytes (readV s x).toNat (readV s y).toNat
  setV { s with disp := r.1 } vf (flagByte r.2)

/-- DXYN (R183): check, read the sprite, draw, write VF, notify the renderer. -/
def execDrw (x y : Reg) (n : Nibble) (s : State) : Host.Outcome State Fault Refusal :=
  match loadBytes s (baseAddress s) n.toNat with
  | some bytes => .next (emitRender (drawn s x y bytes))
  | none => .next (raiseDataAccess s)

end Sys2Proof.Machine
end

