-- ==== Sys2Proof/Machine/Step.lean ====
section
/-! DEFINITION. One step of the model is one tick (R100; log entry 2). -/

namespace Sys2Proof.Machine

/-- R100, R101: what one tick does. -/
def step (s : State) : Host.Outcome State Fault Refusal := tick exec s

/-- `s` with the word `w` (its low `nbits` bits) where the next tick fetches (log entries 2 and 8). -/
def State.withFetchWord (s : State) (nbits w : Nat) : State := placeWord s (BitVec.ofNat 16 (w % 2 ^ nbits))

end Sys2Proof.Machine
end

