-- ==== Sys2Proof/Machine/HostCommands.lean ====
section
/-! DEFINITION. What the host can do to the core between steps (R216, R218 to R222, R224, R225): start, stop, reset, load,
press and release. The tick is `step`. -/

namespace Sys2Proof.Machine

/-- R219: Idle becomes Running and nothing else changes; in Running and in Faulted nothing happens (R218, R229). -/
def hostStart (s : State) : State :=
  match s.run with
  | .idle => { s with run := .running }
  | .running => s
  | .faulted => s

/-- R220: a stop while Running sets STOPREQ, honoured at the next tick boundary (`tick`); otherwise nothing happens
(R218, R229; log entry 11). -/
def hostStop (s : State) : State :=
  match s.run with
  | .running => { s with stopReq := true }
  | .idle => s
  | .faulted => s

/-- R221, R241: reset acts from any state. -/
def hostReset (s : State) : State := resetCore s

/-- R225: the key of an index inside [0, 16) takes the level; any other index does nothing. -/
def setKey (s : State) (index : Int) (level : Bool) : State :=
  if h : 0 ≤ index ∧ index < 16 then { s with key := s.key.set index.toNat level (by omega) } else s

/-- R225 `pressKey(index)`. -/
def hostPress (s : State) (index : Int) : State := setKey s index true

/-- R225 `releaseKey(index)`. -/
def hostRelease (s : State) (index : Int) : State := setKey s index false

/-- R65, R209: what the host is told. -/
inductive LoadAnswer where
  | success
  | tooLarge
deriving DecidableEq, Repr

/-- R65, R66, R209 `loadProgram(bytes)`: while Idle, a program that fits is copied to 512 and one that does not changes
nothing; while not Idle a load has no meaning and is refused by name (log entry 10). -/
def hostLoad (s : State) (bytes : List Byte) : Host.Outcome (LoadAnswer × State) Fault Refusal :=
  match s.run with
  | .idle =>
    if programWf bytes then
      .next (.success, { s with mem := Memory.writeMany s.font s.mem Config.progBase bytes })
    else .next (.tooLarge, s)
  | .running => .refused .loadOutsideIdle
  | .faulted => .refused .loadOutsideIdle

/-- R216: the inputs of the core other than the tick. -/
inductive HostEvent where
  | start
  | stop
  | reset
  | press (index : Int)
  | release (index : Int)
  | load (bytes : List Byte)
deriving DecidableEq, Repr

/-- R216, R222: one host event, between two steps. -/
def hostEvent (e : HostEvent) (s : State) : Host.Outcome State Fault Refusal :=
  match e with
  | .start => .next (hostStart s)
  | .stop => .next (hostStop s)
  | .reset => .next (hostReset s)
  | .press k => .next (hostPress s k)
  | .release k => .next (hostRelease s k)
  | .load bytes =>
    match hostLoad s bytes with
    | .next (_, t) => .next t
    | .fault r => .fault r
    | .refused r => .refused r

end Sys2Proof.Machine
end

