-- ==== Sys2Proof/Safety.lean ====
section
/-! DEFINITION. The terms claims use: what a safe run is (R212), the parts of the state and what leaves them unchanged, the
tables of what an instruction may change and raise, and the invariants. -/

namespace Sys2Proof.Safety

open Sys2Proof.Machine

/-! ### Safe states and runs -/

/-- R212, U10: a faulted state is never a final state a claim may accept. -/
def Safe (s : State) : Prop := s.run ≠ .faulted

/-- R216: everything that can reach the core from outside. -/
inductive Input where
  | tick
  | host (e : HostEvent)
deriving DecidableEq, Repr

/-- What one input does; inputs come one at a time (R107, R222). -/
def applyInput : Input → State → Host.Outcome State Fault Refusal
  | .tick, s => step s
  | .host e, s => hostEvent e s

/-- R37, R240: a state right after construction or reset, whatever FONT and the environment are. -/
def Initial (s : State) : Prop := s = resetCore s

/-- What some sequence of inputs leads to from an initial state. -/
inductive Reachable : State → Prop where
  | initial (s : State) (h : Initial s) : Reachable s
  | input (s t : State) (e : Input) (h : Reachable s) (hn : applyInput e s = .next t) : Reachable t

/-- A run of ticks that never faults. -/
def SafeTicks : Nat → State → Prop
  | 0, s => Safe s
  | k + 1, s => Safe s ∧ ∃ t, step s = .next t ∧ SafeTicks k t

/-! ### Frames -/

/-- The parts of the state, one per field of `State`. -/
inductive Part where
  | v | i | pc | sp | stack | disp | dt | st | key | mem | run | fault | stopReq
  | font | draws | renders | renderFails | beeps | beepFails
deriving DecidableEq, Repr

/-- The part reads the same in both states; registers and memory through the model's own reads. -/
def Part.same (p : Part) (s t : State) : Prop :=
  match p with
  | .v => ∀ x, readV t x = readV s x
  | .i => t.i = s.i
  | .pc => t.pc = s.pc
  | .sp => t.sp = s.sp
  | .stack => t.stack = s.stack
  | .disp => t.disp = s.disp
  | .dt => t.dt = s.dt
  | .st => t.st = s.st
  | .key => t.key = s.key
  | .mem => ∀ a, readByte t a = readByte s a
  | .run => t.run = s.run
  | .fault => t.fault = s.fault
  | .stopReq => t.stopReq = s.stopReq
  | .font => t.font = s.font
  | .draws => t.draws = s.draws
  | .renders => t.renders = s.renders
  | .renderFails => t.renderFails = s.renderFails
  | .beeps => t.beeps = s.beeps
  | .beepFails => t.beepFails = s.beepFails

/-- Every part that is not listed reads the same. -/
def OnlyChanges (ps : List Part) (s t : State) : Prop := ∀ p, p ∉ ps → p.same s t

/-- Every register that is not listed reads the same. -/
def RegsExcept (xs : List Reg) (s t : State) : Prop := ∀ z, z ∉ xs → readV t z = readV s z

/-- Every byte outside `[base, base + count)` reads the same. -/
def MemExcept (base count : Nat) (s t : State) : Prop :=
  ∀ a, (a < base ∨ base + count ≤ a) → readByte t a = readByte s a

/-- The word of the instruction carries the mask and match that its rule gives (R85). -/
def EncodesAs (i : Instr) (mask bits : Word) : Prop := encode i &&& mask = bits ∧ decodeWord (encode i) = some i

/-- The next tick fetches and runs `i`: Running, no stop pending, and the two bytes at pc decode to `i` (R100 to R103). -/
def Fetches (s : State) (i : Instr) : Prop :=
  s.run = .running ∧ s.stopReq = false ∧
    ∃ hi lo, readByte s s.pc.toNat = some hi ∧ readByte s (s.pc.toNat + 1) = some lo ∧ decodeBytes [hi, lo] = .ok (i, [])

/-- R87: the words that are no instruction, by family. -/
def UnknownByFamily (w : Word) : Prop :=
  (fieldOp w = 0x0 ∧ w ≠ 0x00E0 ∧ w ≠ 0x00EE) ∨
  (fieldOp w = 0x5 ∧ fieldN w ≠ 0x0) ∨
  (fieldOp w = 0x8 ∧ fieldN w ∈ ([0x8, 0x9, 0xA, 0xB, 0xC, 0xD, 0xF] : List Nibble)) ∨
  (fieldOp w = 0x9 ∧ fieldN w ≠ 0x0) ∨
  (fieldOp w = 0xE ∧ fieldNN w ∉ ([0x9E, 0xA1] : List Byte)) ∨
  (fieldOp w = 0xF ∧ fieldNN w ∉ ([0x07, 0x0A, 0x15, 0x18, 0x1E, 0x29, 0x33, 0x55, 0x65] : List Byte))

/-- R37: the table of reset values, over whatever FONT the state holds. -/
def HasResetValues (s : State) : Prop :=
  (∀ x, readV s x = 0) ∧ s.i = 0 ∧ s.pc = 512 ∧ s.sp = 0 ∧ (∀ k, k < 16 → s.stack[k]? = some 0) ∧
    (∀ r c, pixel s.disp r c = false) ∧ s.dt = 0 ∧ s.st = 0 ∧ (∀ k, k < 16 → s.key[k]? = some false) ∧
    (∀ a (h : a < 80), readByte s a = some s.font[a]) ∧ (∀ a, 80 ≤ a → a < 4096 → readByte s a = some 0) ∧
    s.run = .idle ∧ s.fault = ⟨.none, 0⟩ ∧ s.stopReq = false

/-! ### What each instruction may change, and what it may raise -/

/-- The parts that entering a fault writes (R211). -/
abbrev faultParts : List Part := [.run, .fault, .stopReq]

/-- The parts an instruction may change: R20 to R30 (who writes each register), R50 (who reaches memory), R184 (who emits
Render); with `faultParts` for an instruction that can raise a fault (R201). -/
def mayChange : Instr → List Part
  | .cls => [.disp, .renders] ++ faultParts
  | .ret => [.pc, .sp] ++ faultParts
  | .jp _ | .jpV0 _ => [.pc]
  | .call _ => [.pc, .sp, .stack] ++ faultParts
  | .seVxNn _ _ | .sneVxNn _ _ | .seVxVy _ _ | .sneVxVy _ _ => [.pc]
  | .ldVxNn _ _ | .addVxNn _ _ | .ldVxVy _ _ | .or _ _ | .and _ _ | .xor _ _ | .addVxVy _ _ | .sub _ _ | .shr _ _
  | .subn _ _ | .shl _ _ => [.v]
  | .ldINnn _ | .addIVx _ | .ldFVx _ => [.i]
  | .rnd _ _ => [.v, .draws]
  | .drw _ _ _ => [.v, .disp, .renders] ++ faultParts
  | .skp _ | .sknp _ => [.pc] ++ faultParts
  | .ldVxDt _ => [.v]
  | .ldVxK _ => faultParts
  | .ldDtVx _ => [.dt]
  | .ldStVx _ => [.st]
  | .ldBVx _ => [.mem] ++ faultParts
  | .ldMemVx _ => [.mem, .i] ++ faultParts
  | .ldVxMem _ => [.v, .i] ++ faultParts

/-- The registers an instruction may write: Vx, Vy of the shifts, VF as a flag (R21), V0 to V(X-1) of FX65 (R165). -/
def mayWriteReg : Instr → Reg → Prop
  | .ldVxNn x _, z | .addVxNn x _, z | .ldVxVy x _, z | .or x _, z | .and x _, z | .xor x _, z | .rnd x _, z
  | .ldVxDt x, z => z = x
  | .addVxVy x _, z | .sub x _, z | .subn x _, z => z = x ∨ z = vf
  | .shr x y, z | .shl x y, z => z = x ∨ z = y ∨ z = vf
  | .drw _ _ _, z => z = vf
  | .ldVxMem x, z => z.toNat < x.toNat
  | .cls, _ | .ret, _ | .jp _, _ | .call _, _ | .seVxNn _ _, _ | .sneVxNn _ _, _ | .seVxVy _ _, _ | .sneVxVy _ _, _
  | .ldINnn _, _ | .jpV0 _, _ | .skp _, _ | .sknp _, _ | .ldVxK _, _ | .ldDtVx _, _ | .ldStVx _, _ | .addIVx _, _
  | .ldFVx _, _ | .ldBVx _, _ | .ldMemVx _, _ => False

/-- The fault causes an instruction's execute phase may raise (R201, column "raised by"). -/
def mayRaise : Instr → List Cause
  | .cls => [.rendererFault]
  | .ret => [.stackUnderflow]
  | .call _ => [.stackOverflow]
  | .drw _ _ _ => [.dataAccessFault, .rendererFault]
  | .skp _ | .sknp _ => [.keyIndexFault]
  | .ldVxK _ => [.unknownOpcode]
  | .ldBVx _ | .ldMemVx _ | .ldVxMem _ => [.dataAccessFault]
  | .jp _ | .seVxNn _ _ | .sneVxNn _ _ | .seVxVy _ _ | .ldVxNn _ _ | .addVxNn _ _ | .ldVxVy _ _ | .or _ _ | .and _ _
  | .xor _ _ | .addVxVy _ _ | .sub _ _ | .shr _ _ | .subn _ _ | .shl _ _ | .sneVxVy _ _ | .ldINnn _ | .jpV0 _ | .rnd _ _
  | .ldVxDt _ | .ldDtVx _ | .ldStVx _ | .addIVx _ | .ldFVx _ => []

/-! ### Sprites -/

/-- R181: some set bit of the `n` sprite bytes at I, drawn at column `x` and row `y`, lands on the pixel of row `r` and
column `c`. -/
def SpriteSets (s : State) (n x y r c : Nat) : Prop :=
  ∃ row col b, row < n ∧ col < 8 ∧ (y + row) % 32 = r ∧ (x + col) % 64 = c ∧
    readByte s (baseAddress s + row) = some b ∧ b.getLsbD (7 - col) = true

/-! ### Invariants -/

/-- Memory is in canonical form. -/
def MemInv (s : State) : Prop := Memory.wf s.font s.mem

/-- R25: pc is at most 4350 and every stack slot at most 4096, so that no sum on pc wraps. -/
def PcInv (s : State) : Prop := s.pc.toNat ≤ 4350 ∧ ∀ k (h : k < 16), s.stack[k].toNat ≤ 4096

/-- R33, R34, R211, R220: a stop is pending only while Running, and FAULT is (0, 0) exactly outside Faulted. -/
def LifecycleInv (s : State) : Prop :=
  (s.stopReq = true → s.run = .running) ∧ (s.fault.cause = .none ↔ s.run ≠ .faulted) ∧
    (s.run ≠ .faulted → s.fault.info = 0)

/-- All of them. -/
def Inv (s : State) : Prop := MemInv s ∧ PcInv s ∧ LifecycleInv s

end Sys2Proof.Safety
end

