-- ==== Sys2Proof/Certificates/Slice0/Obligations.lean ====
section
/-! DEFINITION. The statements for the provers. Each docstring names the rules of spec/ it formalises and, where a clause
rests on a decision of file 92 or on a choice of the model, the log entry (notes/assumptions) that records it. In every
statement about `exec` the state is the one in which pc is already advanced past the instruction (R24, R103). -/

open Sys2Proof Sys2Proof.Machine Sys2Proof.Safety

/-! ### Encoding and decoding -/

/-- Every instruction, with every operand, is what its own word and its own two bytes decode to (R80, R83, R86; the literal
match is D9, log entry 19). -/
def Obligations.DecodeInvertsEncode : Prop :=
  ∀ (i : Instr) (rest : List Byte),
    decodeWord (encode i) = some i ∧ decodeBytes (encodeBytes i ++ rest) = .ok (i, rest)

/-- A word that decodes is the word of the instruction it decodes to, so no two words are one instruction, and the table
form of the decoder reads the same (R85, R86; D9, log entry 19). -/
def Obligations.EncodeInvertsDecode : Prop :=
  ∀ (w : Word) (i : Instr), decodeWord w = some i → encode i = w ∧ decodeTableWord 16 w.toNat = some i

/-- The words that are no instruction are exactly those R87 lists by family (D9, log entry 19). The list is what R87 marks as
derived from R86 by counting. -/
def Obligations.UnknownWordsAreThoseOfTheFamilies : Prop :=
  ∀ w : Word, decodeWord w = none ↔ UnknownByFamily w

/-- R81: each field is the masking expression of the table. -/
def Obligations.FieldsAreDirectMasks : Prop :=
  ∀ w : Word,
    (fieldOp w).setWidth 16 = w >>> 12 ∧
    (fieldX w).setWidth 16 = (w >>> 8) &&& 0xF ∧
    (fieldY w).setWidth 16 = (w >>> 4) &&& 0xF ∧
    (fieldN w).setWidth 16 = w &&& 0xF ∧
    (fieldNN w).setWidth 16 = w &&& 0xFF ∧
    (fieldNNN w).setWidth 16 = w &&& 0xFFF

/-- Words of 95_test_vectors.md section 2.1 and of the examples decode as the spec says. -/
def Obligations.WordsOfTheSpecDecode : Prop :=
  decodeWord 0x00E0 = some .cls ∧ decodeWord 0x00EE = some .ret ∧ decodeWord 0x2300 = some (.call 0x300) ∧
  decodeWord 0x6A02 = some (.ldVxNn 0xA 0x02) ∧ decodeWord 0x8ABE = some (.shl 0xA 0xB) ∧
  decodeWord 0xA210 = some (.ldINnn 0x210) ∧ decodeWord 0xD123 = some (.drw 0x1 0x2 0x3) ∧
  decodeWord 0xEFA1 = some (.sknp 0xF) ∧ decodeWord 0xFF65 = some (.ldVxMem 0xF) ∧
  decodeWord 0x0000 = none ∧ decodeWord 0x01E0 = none ∧ decodeWord 0x8AB8 = none ∧ decodeWord 0xF075 = none

/-! ### The step -/

/-- A tick outside Running changes nothing (R100, R218), and a pending stop is honoured before a step would begin (R220). The
state Faulted is the spec's decision D14 and the bit STOPREQ its D26 (log entries 1 and 11). -/
def Obligations.TickBoundaryObeysLifecycle : Prop :=
  ∀ s : State,
    (s.run ≠ .running → step s = .next s) ∧
    (s.run = .running → s.stopReq = true → step s = .next { s with run := .idle, stopReq := false })

/-- R55: the word fetched has the byte at pc as its high byte and the byte at pc + 1 as its low byte. -/
def Obligations.FetchIsBigEndian : Prop :=
  ∀ (s : State) (hi lo : Byte), readByte s s.pc.toNat = some hi → readByte s (s.pc.toNat + 1) = some lo →
    ∃ w, fetchWord s = some w ∧ w.toNat = 256 * hi.toNat + lo.toNat ∧ w.extractLsb' 8 8 = hi ∧ w.extractLsb' 0 8 = lo

/-- When the two bytes at pc decode to `i`, a tick is the execution of `i` with pc advanced by 2, followed by the timer
phase unless the execution faulted (R101 to R104). -/
def Obligations.StepRunsDecodedInstruction : Prop :=
  ∀ (s : State) (i : Instr), Fetches s i →
    step s = afterExecute (exec i { s with pc := s.pc + 2 }) ∧
    ∀ t, exec i { s with pc := s.pc + 2 } = .next t →
      step s = .next (if t.run = .faulted then t else timerPhase t)

/-- A fetch at 4095 or above raises DecodeFault(pc) with pc unchanged (R202; D3, D13, log entries 1 and 14), and a word that
is no instruction raises UnknownOpcode(w) with pc advanced (R203; D9, D13, log entries 1 and 19). -/
def Obligations.FetchAndDecodeFaults : Prop :=
  ∀ s : State, s.run = .running → s.stopReq = false →
    (4095 ≤ s.pc.toNat → step s = .next (raiseFault s .decodeFault s.pc)) ∧
    (∀ w, fetchWord s = some w → decodeWord w = none →
      step s = .next (raiseFault { s with pc := s.pc + 2 } .unknownOpcode w))

/-- R211: entering a fault writes FAULT, RUN and STOPREQ and nothing else; the codes are those of R201. The record, its codes
and the state Faulted are the spec's decisions D13 and D14 (log entry 1). -/
def Obligations.FaultEntryWritesFaultRunStopReq : Prop :=
  (∀ (s : State) (c : Cause) (info : Word),
    (raiseFault s c info).fault.cause = c ∧ (raiseFault s c info).fault.info = info ∧
    (raiseFault s c info).run = .faulted ∧ (raiseFault s c info).stopReq = false ∧
    OnlyChanges [.fault, .run, .stopReq] s (raiseFault s c info)) ∧
  [Cause.none, .decodeFault, .unknownOpcode, .stackOverflow, .stackUnderflow, .dataAccessFault, .rendererFault,
    .keyIndexFault].map Cause.code = [0, 1, 2, 3, 4, 5, 6, 7]

/-- R104: the first failure ends the step. A fault in execute leaves the state exactly as the instruction left it; a fault in
fetch or decode leaves both timers and emits no Beep; a failing Beep leaves ST as it was with DT already decremented. That a
failure ends in the state Faulted with a FAULT record is D13 and D14 (log entry 1); the answer to a Beep is log entry 4. That
what was written before the failure stays is D22 (log entry 23). -/
def Obligations.FirstFailureEndsTheStep : Prop :=
  (∀ (s t : State) (i : Instr), Fetches s i → exec i { s with pc := s.pc + 2 } = .next t → t.run = .faulted →
    step s = .next t) ∧
  (∀ s : State, s.run = .running → s.stopReq = false →
    (4095 ≤ s.pc.toNat ∨ ∃ w, fetchWord s = some w ∧ decodeWord w = none) →
    ∃ t, step s = .next t ∧ t.run = .faulted ∧ t.dt = s.dt ∧ t.st = s.st ∧ t.beeps = s.beeps) ∧
  (∀ (s t : State) (i : Instr), Fetches s i → exec i { s with pc := s.pc + 2 } = .next t → t.run ≠ .faulted →
    t.st ≠ 0 → beepOk t t.beeps = false →
    ∃ u, step s = .next u ∧ u.run = .faulted ∧ u.st = t.st ∧ u.dt.toNat = t.dt.toNat - 1 ∧
      OnlyChanges [.dt, .beeps, .fault, .run, .stopReq] t u)

/-- R105: after a successful execute phase DT is decremented if it is not 0, and stays at 0. -/
def Obligations.DelayTimerCountsDownToZero : Prop :=
  ∀ (s t : State) (i : Instr), Fetches s i → exec i { s with pc := s.pc + 2 } = .next t → t.run ≠ .faulted →
    ∃ u, step s = .next u ∧ u.dt.toNat = t.dt.toNat - 1

/-- R106: after the delay timer, a nonzero ST emits one Beep and is decremented; a zero ST emits none. A Beep answered fail
raises RendererFault(1) before ST is decremented (D19, log entry 4). -/
def Obligations.SoundTimerBeepsWhileNonzero : Prop :=
  ∀ (s t : State) (i : Instr), Fetches s i → exec i { s with pc := s.pc + 2 } = .next t → t.run ≠ .faulted →
    (t.st = 0 → ∃ u, step s = .next u ∧ OnlyChanges [.dt] t u) ∧
    (t.st ≠ 0 → beepOk t t.beeps = true →
      ∃ u, step s = .next u ∧ u.st.toNat + 1 = t.st.toNat ∧ u.beeps = t.beeps + 1 ∧ OnlyChanges [.dt, .st, .beeps] t u) ∧
    (t.st ≠ 0 → beepOk t t.beeps = false →
      ∃ u, step s = .next u ∧ u.fault = ⟨.rendererFault, 1⟩ ∧ u.run = .faulted ∧ u.st = t.st ∧ u.beeps = t.beeps + 1)

/-- R106: `k` timer phases from ST = k, every Beep answered ok (log entry 4), emit exactly `k` Beeps and leave ST at 0. -/
def Obligations.SoundTimerEmitsExactlyItsValueInBeeps : Prop :=
  ∀ (k : Nat) (s : State), s.st.toNat = k → (∀ n, s.beeps ≤ n → n < s.beeps + k → beepOk s n = true) →
    (timerPhase^[k] s).st = 0 ∧ (timerPhase^[k] s).beeps = s.beeps + k ∧ (timerPhase^[k] s).run = s.run

/-! ### Control transfer -/

/-- R120: 00EE pops the return address into pc and leaves the slot as it was; with sp = 0 it raises StackUnderflow(0x00EE),
whose record is D13 and D14 (log entry 1). Which slot is read is D15 (R27, log entry 22). -/
def Obligations.RetPopsIntoPc : Prop :=
  EncodesAs .ret 0xFFFF 0x00EE ∧
  ∀ s : State,
    (∀ (k : Nat) (target : Word), s.sp.val = k + 1 → s.stack[k]? = some target →
      ∃ t, exec .ret s = .next t ∧ t.pc = target ∧ t.sp.val = k ∧ OnlyChanges [.pc, .sp] s t) ∧
    (s.sp.val = 0 → exec .ret s = .next (raiseFault s .stackUnderflow 0x00EE))

/-- R121: 1NNN sets pc to NNN. -/
def Obligations.JpSetsPc : Prop :=
  ∀ (nnn : Addr12) (s : State), EncodesAs (.jp nnn) 0xF000 0x1000 ∧
    ∃ t, exec (.jp nnn) s = .next t ∧ t.pc.toNat = nnn.toNat ∧ OnlyChanges [.pc] s t

/-- R122: 2NNN pushes the advanced pc and jumps to NNN; with sp = 16 it raises StackOverflow(w), whose record is D13 and D14
(log entry 1). Which slot is written is D15 (R27, log entry 22). -/
def Obligations.CallPushesAdvancedPc : Prop :=
  ∀ (nnn : Addr12) (s : State), EncodesAs (.call nnn) 0xF000 0x2000 ∧
    (∀ k, s.sp.val = k → k < 16 →
      ∃ t, exec (.call nnn) s = .next t ∧ t.stack[k]? = some s.pc ∧ (∀ j, j ≠ k → t.stack[j]? = s.stack[j]?) ∧
        t.sp.val = k + 1 ∧ t.pc.toNat = nnn.toNat ∧ OnlyChanges [.pc, .sp, .stack] s t) ∧
    (s.sp.val = 16 →
      exec (.call nnn) s = .next (raiseFault s .stackOverflow (BitVec.ofNat 16 (0x2000 + nnn.toNat))))

/-- R123: BNNN sets pc to NNN + V0, not reduced to 12 bits (D29, log entry 26). -/
def Obligations.JpV0AddsV0 : Prop :=
  ∀ (nnn : Addr12) (s : State), EncodesAs (.jpV0 nnn) 0xF000 0xB000 ∧
    ∃ t, exec (.jpV0 nnn) s = .next t ∧ t.pc.toNat = nnn.toNat + (readV s 0).toNat ∧ OnlyChanges [.pc] s t

/-- R124, R125: 3XNN skips when Vx = NN, 4XNN when Vx ≠ NN. That a skip adds 2 is the inference that R109 marks as derived from
R102 and R80. -/
def Obligations.SkipsOnConstant : Prop :=
  ∀ (x : Reg) (nn : Byte) (s : State),
    EncodesAs (.seVxNn x nn) 0xF000 0x3000 ∧ EncodesAs (.sneVxNn x nn) 0xF000 0x4000 ∧
    (∃ t, exec (.seVxNn x nn) s = .next t ∧ t.pc = (if readV s x = nn then s.pc + 2 else s.pc) ∧
      OnlyChanges [.pc] s t) ∧
    (∃ t, exec (.sneVxNn x nn) s = .next t ∧ t.pc = (if readV s x = nn then s.pc else s.pc + 2) ∧
      OnlyChanges [.pc] s t)

/-- R126, R127: 5XY0 skips when Vx = Vy, 9XY0 when Vx ≠ Vy; 5XYn and 9XYn with n ≠ 0 are unknown opcodes
(R87), which is the literal match D9 (log entry 19). That a skip adds 2 is the inference that R109 marks as derived from R102 and
R80. -/
def Obligations.SkipsOnRegister : Prop :=
  ∀ (x y : Reg) (s : State),
    EncodesAs (.seVxVy x y) 0xF00F 0x5000 ∧ EncodesAs (.sneVxVy x y) 0xF00F 0x9000 ∧
    (∃ t, exec (.seVxVy x y) s = .next t ∧ t.pc = (if readV s x = readV s y then s.pc + 2 else s.pc) ∧
      OnlyChanges [.pc] s t) ∧
    (∃ t, exec (.sneVxVy x y) s = .next t ∧ t.pc = (if readV s x = readV s y then s.pc else s.pc + 2) ∧
      OnlyChanges [.pc] s t) ∧
    ∀ n : Nibble, n ≠ 0 → decodeWord (wordXYN 0x5 x y n) = none ∧ decodeWord (wordXYN 0x9 x y n) = none

/-! ### Load, arithmetic, logic, shifts, random -/

/-- R140: 6XNN loads NN. -/
def Obligations.LdVxNnLoadsConstant : Prop :=
  ∀ (x : Reg) (nn : Byte) (s : State), EncodesAs (.ldVxNn x nn) 0xF000 0x6000 ∧
    ∃ t, exec (.ldVxNn x nn) s = .next t ∧ readV t x = nn ∧ RegsExcept [x] s t ∧ OnlyChanges [.v] s t

/-- R141: 7XNN adds NN modulo 256 and writes no flag. -/
def Obligations.AddVxNnWrapsWithoutFlag : Prop :=
  ∀ (x : Reg) (nn : Byte) (s : State), EncodesAs (.addVxNn x nn) 0xF000 0x7000 ∧
    ∃ t, exec (.addVxNn x nn) s = .next t ∧ (readV t x).toNat = ((readV s x).toNat + nn.toNat) % 256 ∧
      RegsExcept [x] s t ∧ OnlyChanges [.v] s t

/-- R142: 8XY0 copies Vy to Vx. -/
def Obligations.LdVxVyCopies : Prop :=
  ∀ (x y : Reg) (s : State), EncodesAs (.ldVxVy x y) 0xF00F 0x8000 ∧
    ∃ t, exec (.ldVxVy x y) s = .next t ∧ readV t x = readV s y ∧ RegsExcept [x] s t ∧ OnlyChanges [.v] s t

/-- R143, R144, R145: 8XY1, 8XY2 and 8XY3 are bitwise on all 8 bits; no other register changes, VF included (D30, log
entry 27). -/
def Obligations.LogicIsBitwiseWithoutFlag : Prop :=
  ∀ (x y : Reg) (s : State),
    EncodesAs (.or x y) 0xF00F 0x8001 ∧ EncodesAs (.and x y) 0xF00F 0x8002 ∧ EncodesAs (.xor x y) 0xF00F 0x8003 ∧
    (∃ t, exec (.or x y) s = .next t ∧
      (∀ k, k < 8 → (readV t x).getLsbD k = ((readV s x).getLsbD k || (readV s y).getLsbD k)) ∧
      RegsExcept [x] s t ∧ OnlyChanges [.v] s t) ∧
    (∃ t, exec (.and x y) s = .next t ∧
      (∀ k, k < 8 → (readV t x).getLsbD k = ((readV s x).getLsbD k && (readV s y).getLsbD k)) ∧
      RegsExcept [x] s t ∧ OnlyChanges [.v] s t) ∧
    (∃ t, exec (.xor x y) s = .next t ∧
      (∀ k, k < 8 → (readV t x).getLsbD k = ((readV s x).getLsbD k != (readV s y).getLsbD k)) ∧
      RegsExcept [x] s t ∧ OnlyChanges [.v] s t)

/-- R146: 8XY4 adds modulo 256 and writes the carry to VF. That the carry wins when x is F is the sequential reading D8 (log
entry 18). -/
def Obligations.AddVxVyCarries : Prop :=
  ∀ (x y : Reg) (s : State), EncodesAs (.addVxVy x y) 0xF00F 0x8004 ∧
    ∃ t, exec (.addVxVy x y) s = .next t ∧
      (x ≠ vf → (readV t x).toNat = ((readV s x).toNat + (readV s y).toNat) % 256) ∧
      readV t vf = (if 256 ≤ (readV s x).toNat + (readV s y).toNat then 1 else 0) ∧
      RegsExcept [x, vf] s t ∧ OnlyChanges [.v] s t

/-- R147, R149: 8XY5 gives Vx - Vy and 8XY7 gives Vy - Vx modulo 256, and each writes not-borrow to VF. That the flag wins
when x is F is the sequential reading D8 (log entry 18). That 8XY7 borrows when Vy < Vx is the inference that R149 marks as
derived from the wording of 8XY5. -/
def Obligations.SubAndSubnBorrow : Prop :=
  ∀ (x y : Reg) (s : State), EncodesAs (.sub x y) 0xF00F 0x8005 ∧ EncodesAs (.subn x y) 0xF00F 0x8007 ∧
    (∃ t, exec (.sub x y) s = .next t ∧
      (x ≠ vf → ((readV t x).toNat : Int) = ((readV s x).toNat - (readV s y).toNat : Int) % 256) ∧
      readV t vf = (if (readV s x).toNat < (readV s y).toNat then 0 else 1) ∧
      RegsExcept [x, vf] s t ∧ OnlyChanges [.v] s t) ∧
    (∃ t, exec (.subn x y) s = .next t ∧
      (x ≠ vf → ((readV t x).toNat : Int) = ((readV s y).toNat - (readV s x).toNat : Int) % 256) ∧
      readV t vf = (if (readV s y).toNat < (readV s x).toNat then 0 else 1) ∧
      RegsExcept [x, vf] s t ∧ OnlyChanges [.v] s t)

/-- R148, R150: the shifts move Vy by one bit, write the result to Vy and Vx, and the bit moved out to VF. With x = F the
result is what VF ends with, and with y = F the flag bit is what is shifted, by the sequential reading D8 (log entry 18). -/
def Obligations.ShiftsMoveVyIntoBoth : Prop :=
  ∀ (x y : Reg) (s : State), EncodesAs (.shr x y) 0xF00F 0x8006 ∧ EncodesAs (.shl x y) 0xF00F 0x800E ∧
    (∃ t, exec (.shr x y) s = .next t ∧
      (y ≠ vf → (readV t y).toNat = (readV s y).toNat / 2 ∧ readV t x = readV t y ∧
        (x ≠ vf → (readV t vf).toNat = (readV s y).toNat % 2)) ∧
      (y = vf → readV t vf = 0 ∧ readV t x = 0) ∧
      RegsExcept [x, y, vf] s t ∧ OnlyChanges [.v] s t) ∧
    (∃ t, exec (.shl x y) s = .next t ∧
      (y ≠ vf → (readV t y).toNat = 2 * (readV s y).toNat % 256 ∧ readV t x = readV t y ∧
        (x ≠ vf → (readV t vf).toNat = (readV s y).toNat / 128)) ∧
      (y = vf → (readV t vf).toNat = 2 * ((readV s vf).toNat / 128) ∧ readV t x = readV t vf) ∧
      RegsExcept [x, y, vf] s t ∧ OnlyChanges [.v] s t)

/-- R151: CXNN writes the drawn byte AND NN, and each execution draws once. The byte is a free value (D12, log entry 3): the
statement holds whatever it is, and every bit that is 0 in NN is 0 in the result. -/
def Obligations.RndMasksADrawnByte : Prop :=
  ∀ (x : Reg) (nn : Byte) (s : State), EncodesAs (.rnd x nn) 0xF000 0xC000 ∧
    ∃ t, exec (.rnd x nn) s = .next t ∧ readV t x = Config.randByte s.draws &&& nn ∧ t.draws = s.draws + 1 ∧
      (∀ k, nn.getLsbD k = false → (readV t x).getLsbD k = false) ∧ (readV t x).toNat ≤ nn.toNat ∧
      RegsExcept [x] s t ∧ OnlyChanges [.v, .draws] s t

/-! ### Address register and memory -/

/-- R160: ANNN sets I to NNN. -/
def Obligations.LdISetsAddress : Prop :=
  ∀ (nnn : Addr12) (s : State), EncodesAs (.ldINnn nnn) 0xF000 0xA000 ∧
    ∃ t, exec (.ldINnn nnn) s = .next t ∧ t.i.toNat = nnn.toNat ∧ OnlyChanges [.i] s t

/-- R161, R162: FX1E adds Vx to I modulo 65536 with no flag (D7, log entry 17); FX29 sets I to 5 times the whole of Vx (D23,
log entry 24). -/
def Obligations.AddIAndGlyphAddress : Prop :=
  ∀ (x : Reg) (s : State), EncodesAs (.addIVx x) 0xF0FF 0xF01E ∧ EncodesAs (.ldFVx x) 0xF0FF 0xF029 ∧
    (∃ t, exec (.addIVx x) s = .next t ∧ t.i.toNat = (s.i.toNat + (readV s x).toNat) % 65536 ∧ OnlyChanges [.i] s t) ∧
    (∃ t, exec (.ldFVx x) s = .next t ∧ t.i.toNat = 5 * (readV s x).toNat ∧ OnlyChanges [.i] s t)

/-- R163: FX33 stores the three decimal digits at I, I + 1 and I + 2 and changes nothing else; beyond memory it raises
DataAccessFault(max(I, 4096)) with nothing written (D5, D13, log entries 1 and 15). -/
def Obligations.LdBStoresDecimalDigits : Prop :=
  ∀ (x : Reg) (s : State), EncodesAs (.ldBVx x) 0xF0FF 0xF033 ∧
    (baseAddress s + 2 < 4096 →
      ∃ t h m o, exec (.ldBVx x) s = .next t ∧
        readByte t (baseAddress s) = some h ∧ readByte t (baseAddress s + 1) = some m ∧
        readByte t (baseAddress s + 2) = some o ∧ h.toNat = (readV s x).toNat / 100 ∧
        m.toNat = (readV s x).toNat / 10 % 10 ∧ o.toNat = (readV s x).toNat % 10 ∧
        100 * h.toNat + 10 * m.toNat + o.toNat = (readV s x).toNat ∧
        MemExcept (baseAddress s) 3 s t ∧ OnlyChanges [.mem] s t) ∧
    (4096 ≤ baseAddress s + 2 →
      exec (.ldBVx x) s = .next (raiseFault s .dataAccessFault (BitVec.ofNat 16 (max s.i.toNat 4096))))

/-- R164: FX55 stores V0 to V(X-1) from I on and advances I by X; X = 0 stores nothing and cannot fault (D6, log entry 16);
beyond memory it raises DataAccessFault(max(I, 4096)) with nothing changed (D5, D13, log entries 1 and 15). The count X is
D00's literal text (D25, log entry 28). -/
def Obligations.LdMemStoresFirstRegisters : Prop :=
  ∀ (x : Reg) (s : State), EncodesAs (.ldMemVx x) 0xF0FF 0xF055 ∧
    (x.toNat = 0 ∨ baseAddress s + x.toNat ≤ 4096 →
      ∃ t, exec (.ldMemVx x) s = .next t ∧
        (∀ z : Reg, z.toNat < x.toNat → readByte t (baseAddress s + z.toNat) = some (readV s z)) ∧
        t.i.toNat = s.i.toNat + x.toNat ∧ MemExcept (baseAddress s) x.toNat s t ∧ OnlyChanges [.mem, .i] s t) ∧
    (x.toNat ≠ 0 → 4096 < baseAddress s + x.toNat →
      exec (.ldMemVx x) s = .next (raiseFault s .dataAccessFault (BitVec.ofNat 16 (max s.i.toNat 4096))))

/-- R165: FX65 loads V0 to V(X-1) from I on and advances I by X; X = 0 loads nothing and cannot fault (D6, log entry 16);
beyond memory it raises DataAccessFault(max(I, 4096)) with nothing changed (D5, D13, log entries 1 and 15). The count X is
D00's literal text (D25, log entry 28). -/
def Obligations.LdVxMemLoadsFirstRegisters : Prop :=
  ∀ (x : Reg) (s : State), EncodesAs (.ldVxMem x) 0xF0FF 0xF065 ∧
    (x.toNat = 0 ∨ baseAddress s + x.toNat ≤ 4096 →
      ∃ t, exec (.ldVxMem x) s = .next t ∧
        (∀ z : Reg, z.toNat < x.toNat → readByte s (baseAddress s + z.toNat) = some (readV t z)) ∧
        (∀ z : Reg, x.toNat ≤ z.toNat → readV t z = readV s z) ∧
        t.i.toNat = s.i.toNat + x.toNat ∧ OnlyChanges [.v, .i] s t) ∧
    (x.toNat ≠ 0 → 4096 < baseAddress s + x.toNat →
      exec (.ldVxMem x) s = .next (raiseFault s .dataAccessFault (BitVec.ofNat 16 (max s.i.toNat 4096))))

/-- R63, which the spec marks as derived: a store is seen by the next fetch. When FX55 stores over the address pc holds, the
word fetched next is made of the registers stored there. -/
def Obligations.StoreIsSeenByTheNextFetch : Prop :=
  ∀ (x k k' : Reg) (s : State), k'.toNat = k.toNat + 1 → k'.toNat < x.toNat → baseAddress s + x.toNat ≤ 4096 →
    s.pc.toNat = baseAddress s + k.toNat →
    ∃ t, exec (.ldMemVx x) s = .next t ∧ fetchWord t = some (readV s k ++ readV s k')

/-! ### Display -/

/-- R182, R180: 00E0 clears every pixel and emits one Render; if the host answers fail it raises RendererFault(0) with the
display cleared. The answer is the host's (D19, log entry 4), and the fault's record is D13 and D14 (log entry 1). -/
def Obligations.ClsClearsAndNotifies : Prop :=
  EncodesAs .cls 0xFFFF 0x00E0 ∧
  ∀ s : State, ∃ u, (∀ r c, pixel u.disp r c = false) ∧ u.renders = s.renders + 1 ∧ OnlyChanges [.disp, .renders] s u ∧
    (renderOk s s.renders = true → exec .cls s = .next u) ∧
    (renderOk s s.renders = false → exec .cls s = .next (raiseFault u .rendererFault 0))

/-- R183, R181: with the Render answered ok, DXYN XORs the N sprite bytes at I into the display with its top-left pixel at
(Vx, Vy), wrapping on each axis; VF is 1 exactly when a set pixel was turned unset; one Render is emitted; I is not changed. The
answer ok is a named assumption about the host (D19), and it and the count of Renders are fields of the model's own (DESIGN
CHOICE, log entry 4); the answer fail and a sprite beyond memory are DrwFaults. The coordinates are the registers before VF is
written (D24, log entry 25), and N = 0 asks for no address (D6, log entry 16). -/
def Obligations.DrwXorsTheSprite : Prop :=
  ∀ (x y : Reg) (n : Nibble) (s : State), EncodesAs (.drw x y n) 0xF000 0xD000 ∧
    (n.toNat = 0 ∨ baseAddress s + n.toNat ≤ 4096 → renderOk s s.renders = true →
      ∃ t, exec (.drw x y n) s = .next t ∧
        (∀ r c, r < 32 → c < 64 → (pixel t.disp r c = true ↔
          ¬ (pixel s.disp r c = true ↔ SpriteSets s n.toNat (readV s x).toNat (readV s y).toNat r c))) ∧
        (readV t vf = 0 ∨ readV t vf = 1) ∧
        (readV t vf = 1 ↔ ∃ r c, r < 32 ∧ c < 64 ∧ pixel s.disp r c = true ∧ pixel t.disp r c = false) ∧
        t.renders = s.renders + 1 ∧ RegsExcept [vf] s t ∧ OnlyChanges [.v, .disp, .renders] s t)

/-- R183, R184: DXYN beyond memory raises DataAccessFault(max(I, 4096)) with nothing changed (D5, D13, log entries 1 and 15);
a Render answered fail raises RendererFault(0) over the same display and VF that an answer of ok leaves (D19, log entry 4).
That the display and VF stay is D22 (log entry 23). -/
def Obligations.DrwFaults : Prop :=
  ∀ (x y : Reg) (n : Nibble) (s : State),
    (n.toNat ≠ 0 → 4096 < baseAddress s + n.toNat →
      exec (.drw x y n) s = .next (raiseFault s .dataAccessFault (BitVec.ofNat 16 (max s.i.toNat 4096)))) ∧
    (n.toNat = 0 ∨ baseAddress s + n.toNat ≤ 4096 → renderOk s s.renders = false →
      ∃ u, exec (.drw x y n) { s with renderFails := [] } = .next u ∧
        exec (.drw x y n) s = .next (raiseFault { u with renderFails := s.renderFails } .rendererFault 0))

/-- R183: drawing the same sprite twice at the same place restores the display. X and Y are not F, because the first draw
writes VF. -/
def Obligations.DrawingTwiceRestoresTheDisplay : Prop :=
  ∀ (x y : Reg) (n : Nibble) (s t u : State), x ≠ vf → y ≠ vf → exec (.drw x y n) s = .next t →
    exec (.drw x y n) t = .next u → u.disp = s.disp

/-! ### Keys and timers -/

/-- R190, R191: EX9E skips when the key that Vx names is pressed, EXA1 when it is not; the latch is not changed. Vx of 16 or
more raises KeyIndexFault(Vx), which is the spec's own choice D11 (R196, log entry 21). That a taken skip adds 2 is the
inference that R109 marks as derived from R102 and R80. -/
def Obligations.KeySkipsReadOneKey : Prop :=
  ∀ (x : Reg) (s : State), EncodesAs (.skp x) 0xF0FF 0xE09E ∧ EncodesAs (.sknp x) 0xF0FF 0xE0A1 ∧
    (∀ b, s.key[(readV s x).toNat]? = some b →
      (∃ t, exec (.skp x) s = .next t ∧ t.pc = (if b = true then s.pc + 2 else s.pc) ∧ OnlyChanges [.pc] s t) ∧
      (∃ t, exec (.sknp x) s = .next t ∧ t.pc = (if b = true then s.pc else s.pc + 2) ∧ OnlyChanges [.pc] s t)) ∧
    (16 ≤ (readV s x).toNat →
      exec (.skp x) s = .next (raiseFault s .keyIndexFault (BitVec.ofNat 16 (readV s x).toNat)) ∧
      exec (.sknp x) s = .next (raiseFault s .keyIndexFault (BitVec.ofNat 16 (readV s x).toNat)))

/-- R192: FX07 reads DT, and the timer phase of the same step decrements DT after the read. -/
def Obligations.LdVxDtReadsDelayTimer : Prop :=
  ∀ (x : Reg) (s : State), EncodesAs (.ldVxDt x) 0xF0FF 0xF007 ∧
    ∃ t, exec (.ldVxDt x) s = .next t ∧ readV t x = s.dt ∧ RegsExcept [x] s t ∧ OnlyChanges [.v] s t ∧
      readV (timerPhase t) x = s.dt ∧ (timerPhase t).dt.toNat = s.dt.toNat - 1

/-- R194: FX15 sets DT to Vx. That the timer phase of the same step decrements the new value at once is the inference that
R194 marks as derived from R101. -/
def Obligations.LdDtVxSetsDelayTimer : Prop :=
  ∀ (x : Reg) (s : State), EncodesAs (.ldDtVx x) 0xF0FF 0xF015 ∧
    ∃ t, exec (.ldDtVx x) s = .next t ∧ t.dt = readV s x ∧ OnlyChanges [.dt] s t ∧
      (timerPhase t).dt.toNat = (readV s x).toNat - 1

/-- R195: FX18 sets ST to Vx, and the timer phase of the same step beeps for a nonzero new value and decrements it (the answer
to the Beep is free, log entry 4). -/
def Obligations.LdStVxSetsSoundTimer : Prop :=
  ∀ (x : Reg) (s : State), EncodesAs (.ldStVx x) 0xF0FF 0xF018 ∧
    ∃ t, exec (.ldStVx x) s = .next t ∧ t.st = readV s x ∧ OnlyChanges [.st] s t ∧
      (readV s x = 0 → (timerPhase t).st = 0 ∧ (timerPhase t).beeps = s.beeps) ∧
      (readV s x ≠ 0 → (timerPhase t).beeps = s.beeps + 1 ∧
        (beepOk s s.beeps = true → (timerPhase t).st.toNat + 1 = (readV s x).toNat))

/-- R193: FX0A raises UnknownOpcode(w) on every execution, for every X; no register is written and no key is read (D10, D13,
log entries 1 and 20). -/
def Obligations.LdVxKAlwaysFaults : Prop :=
  ∀ (x : Reg) (s : State), EncodesAs (.ldVxK x) 0xF0FF 0xF00A ∧
    exec (.ldVxK x) s = .next (raiseFault s .unknownOpcode (BitVec.ofNat 16 (0xF00A + 256 * x.toNat))) ∧
    OnlyChanges [.run, .fault, .stopReq] s (raiseFault s .unknownOpcode (BitVec.ofNat 16 (0xF00A + 256 * x.toNat)))

/-! ### The whole machine -/

/-- Every instruction, in every state, answers a next state, and so does every tick: no operation of a step blocks or stops
(R100, R107). That a fault is a next state is log entry 1. -/
def Obligations.EveryTickAnswersANextState : Prop :=
  (∀ (i : Instr) (s : State), ∃ t, exec i s = .next t) ∧ ∀ s : State, ∃ t, step s = .next t

/-- Each part of the state is written only by the instructions that its rule names: pc (R24), the stack (R26), I (R22), DT and
ST (R29), the display (R28), memory (R50), Render events (R184), and nothing writes KEY (R30). A fault may also write RUN,
FAULT and STOPREQ (R211; D13, D14, log entry 1), and the numbers of events and draws are the model's own (log entries 3 and
4). That no other instruction emits a Render is D16 (R184, log entry 23), and that stack, display, timers and keys are not in
memory is what R50 marks as derived. -/
def Obligations.PartsAreWrittenOnlyByTheirInstructions : Prop :=
  ∀ (i : Instr) (s t : State), exec i s = .next t → OnlyChanges (mayChange i) s t

/-- Each register is written only by an instruction that names it as its destination, or as VF by one that R21 lists as
writing the flag (R20, R21). That FX65 loads V0 to V(X-1) is D25 (R165, log entry 28). -/
def Obligations.RegistersAreWrittenOnlyAsNamed : Prop :=
  ∀ (i : Instr) (s t : State) (z : Reg), exec i s = .next t → ¬ mayWriteReg i z → readV t z = readV s z

/-- An execution that faults does so with one of the causes R201 lists for its instruction, and one that does not leaves RUN,
FAULT and STOPREQ alone (R210; the codes are D13, log entry 1). -/
def Obligations.InstructionsRaiseOnlyTheirOwnFaults : Prop :=
  ∀ (i : Instr) (s t : State), exec i s = .next t →
    (t.run = s.run ∧ t.fault = s.fault ∧ t.stopReq = s.stopReq) ∨
    (t.run = .faulted ∧ t.fault.cause ∈ mayRaise i ∧ t.stopReq = false)

/-- R30, R38: no step changes a key, whatever it runs; nor FONT nor the host's answers (log entries 4 and 5). -/
def Obligations.StepsNeverChangeKeys : Prop :=
  ∀ s t : State, step s = .next t →
    t.key = s.key ∧ t.font = s.font ∧ t.renderFails = s.renderFails ∧ t.beepFails = s.beepFails

/-- Every step keeps memory in its canonical form: addresses rising and below 4096, no cell at its reset contents. The form is
the model's own way to write memory down (DEDUCED, log entry 30); that no address is 4096 or more is what R50 says of the address
space. -/
def Obligations.MemoryStaysCanonical : Prop :=
  ∀ s t : State, MemInv s → step s = .next t → MemInv t

/-- R25, which the spec marks as derived (DEDUCED, log entry 7): every step keeps pc at most 4350 and every stack slot at most
4096, so pc never wraps around 16 bits. -/
def Obligations.PcStaysBounded : Prop :=
  ∀ s t : State, PcInv s → step s = .next t → PcInv t

/-- Every step keeps a stop pending only while Running, and FAULT at (0, 0) exactly outside Faulted (R33, R34, R211, R220; D13,
D14, D26, log entries 1 and 11). -/
def Obligations.LifecycleStaysConsistent : Prop :=
  ∀ s t : State, LifecycleInv s → step s = .next t → LifecycleInv t

/-- The state after reset meets the invariants, whatever FONT and the environment are (R37; log entries 5 and 9). The form of
memory is the model's own (DEDUCED, log entry 30), and the bounds on pc and the stack are R25's inference (DEDUCED, log entry 7). -/
def Obligations.ResetMeetsTheInvariants : Prop :=
  Inv State.reset ∧ ∀ s : State, Inv (hostReset s)

/-- Every host command keeps the invariants (R216 to R225; the states are those of D14 and D26, log entries 1 and 11). The
form of memory is the model's own (DEDUCED, log entry 30), and the bounds on pc and the stack are R25's inference (DEDUCED, log
entry 7). -/
def Obligations.HostEventsKeepTheInvariants : Prop :=
  ∀ (e : HostEvent) (s t : State), Inv s → hostEvent e s = .next t → Inv t

/-- Every state that ticks and host commands (R216, R218) can reach from reset (R37, R240), in any order, meets the invariants:
the corollary of the statements about one step, about reset and about the host's commands. The form of memory is the model's own
(DEDUCED, log entry 30), the bounds on pc and the stack are R25's inference (DEDUCED, log entry 7), and the lifecycle states are
D14 and D26 (log entries 1 and 11). -/
def Obligations.ReachableStatesMeetTheInvariants : Prop :=
  ∀ s : State, Reachable s → Inv s

/-! ### Reset and the host's commands -/

/-- R37, R240, R241: after construction, and after the reset command from any state, every piece of state has the value of the
table, with FONT in [0, 80) and 0 above. The rows FAULT and STOPREQ are the spec's decisions D13 and D26 (log entries 1 and
11); that FONT, the counts of draws and events, and the answers stay is the model's choice (log entry 9). -/
def Obligations.ResetSetsEveryValue : Prop :=
  HasResetValues State.reset ∧
  ∀ s : State, HasResetValues (hostReset s) ∧ (hostReset s).font = s.font ∧ (hostReset s).draws = s.draws ∧
    (hostReset s).renders = s.renders ∧ (hostReset s).renderFails = s.renderFails ∧ (hostReset s).beeps = s.beeps ∧
    (hostReset s).beepFails = s.beepFails

/-- R65, R66, R209: while Idle a program of at most 3584 bytes is copied to 512 and nothing else changes; a larger one is
answered `tooLarge` and changes nothing; outside Idle a load has no meaning (D17, log entry 10). That nothing else is written
is the inference that R65 marks as derived from "copies bytes". -/
def Obligations.LoadCopiesAProgramThatFits : Prop :=
  ∀ (s : State) (bytes : List Byte),
    (s.run = .idle → bytes.length ≤ 3584 →
      ∃ t, hostLoad s bytes = .next (.success, t) ∧
        (∀ k b, bytes[k]? = some b → readByte t (512 + k) = some b) ∧
        MemExcept 512 bytes.length s t ∧ OnlyChanges [.mem] s t) ∧
    (s.run = .idle → 3584 < bytes.length → hostLoad s bytes = .next (.tooLarge, s)) ∧
    (s.run ≠ .idle → hostLoad s bytes = .refused .loadOutsideIdle)

/-- R225: press and release set the level of a key inside [0, 16), in every lifecycle state, and do nothing for any other
index. -/
def Obligations.PressAndReleaseSetOneKey : Prop :=
  ∀ (s : State) (index : Int),
    (∀ k : Nat, k < 16 → index = k →
      (hostPress s index).key[k]? = some true ∧ (hostRelease s index).key[k]? = some false ∧
      (∀ j, j ≠ k → (hostPress s index).key[j]? = s.key[j]? ∧ (hostRelease s index).key[j]? = s.key[j]?) ∧
      OnlyChanges [.key] s (hostPress s index) ∧ OnlyChanges [.key] s (hostRelease s index)) ∧
    (index < 0 ∨ 16 ≤ index → hostPress s index = s ∧ hostRelease s index = s)

/-- R218, R219, R220: start acts only from Idle and changes RUN alone (D31, log entry 11); stop acts only from Running and sets
STOPREQ alone (D26, log entry 11); from Faulted neither does anything (D14, log entry 1). -/
def Obligations.StartAndStopMoveTheLifecycle : Prop :=
  ∀ s : State,
    (s.run = .idle → (hostStart s).run = .running ∧ OnlyChanges [.run] s (hostStart s) ∧ hostStop s = s) ∧
    (s.run = .running → hostStart s = s ∧ (hostStop s).stopReq = true ∧ OnlyChanges [.stopReq] s (hostStop s)) ∧
    (s.run = .faulted → hostStart s = s ∧ hostStop s = s)
end

