-- ==== Sys2Proof/Laws/Memory.lean ====
section
/-! SUPPORT. The laws of memory: a read after a write, and that every operation keeps the canonical form. -/

namespace Sys2Proof.Machine

/-! ### Cells -/

theorem findCell_filter_self (mem : List Host.Cell) (a : Nat) :
    findCell (mem.filter (fun c => c.1 ≠ a)) a = none := by
  induction mem with
  | nil => rfl
  | cons c cs ih =>
    by_cases h : c.1 = a
    · simpa [h] using ih
    · simpa [h, findCell] using ih

theorem findCell_filter_other (mem : List Host.Cell) {a b : Nat} (hab : b ≠ a) :
    findCell (mem.filter (fun c => c.1 ≠ a)) b = findCell mem b := by
  induction mem with
  | nil => rfl
  | cons c cs ih =>
    by_cases h : c.1 = a
    · have hb : c.1 ≠ b := fun hc => hab (hc.symm.trans h)
      simpa [h, findCell, hab.symm] using ih
    · by_cases hb : c.1 = b
      · simp [findCell, hb, hab]
      · simpa [h, findCell, hb] using ih

theorem findCell_insert_self {mem : List Host.Cell} {a : Nat} (b : Byte) (h : findCell mem a = none) :
    findCell (insertCell a b mem) a = some b := by
  induction mem with
  | nil => simp [insertCell, findCell]
  | cons c cs ih =>
    by_cases hc : c.1 = a
    · simp [findCell, hc] at h
    · by_cases hlt : a < c.1
      · simp [insertCell, hlt, findCell]
      · simp only [findCell, hc, if_false] at h
        simp [insertCell, hlt, findCell, hc, ih h]

theorem findCell_insert_other (mem : List Host.Cell) {a a' : Nat} (b : Byte) (h : a' ≠ a) :
    findCell (insertCell a b mem) a' = findCell mem a' := by
  induction mem with
  | nil => simp [insertCell, findCell, h.symm]
  | cons c cs ih =>
    by_cases hlt : a < c.1
    · simp [insertCell, hlt, findCell, h.symm]
    · rw [insertCell, if_neg hlt, findCell, findCell, ih]

theorem mem_insertCell {mem : List Host.Cell} {a : Nat} {b : Byte} {c : Host.Cell} :
    c ∈ insertCell a b mem ↔ c = (a, b) ∨ c ∈ mem := by
  induction mem with
  | nil => simp [insertCell]
  | cons d ds ih =>
    by_cases hlt : a < d.1
    · simp [insertCell, hlt]
    · simp only [insertCell, hlt, if_false, List.mem_cons, ih]
      tauto

theorem insertCell_sorted {mem : List Host.Cell} (a : Nat) (b : Byte) (hs : mem.Pairwise (fun c d => c.1 < d.1))
    (hne : ∀ c ∈ mem, c.1 ≠ a) : (insertCell a b mem).Pairwise (fun c d => c.1 < d.1) := by
  induction mem with
  | nil => simp [insertCell]
  | cons c cs ih =>
    obtain ⟨hc, hcs⟩ := List.pairwise_cons.mp hs
    by_cases hlt : a < c.1
    · simp only [insertCell, hlt, if_true]
      refine List.pairwise_cons.mpr ⟨fun d hd => ?_, hs⟩
      rcases List.mem_cons.mp hd with rfl | hd
      · exact hlt
      · exact hlt.trans (hc d hd)
    · simp only [insertCell, hlt, if_false]
      refine List.pairwise_cons.mpr ⟨fun d hd => ?_, ih hcs (fun d hd => hne d (List.mem_cons_of_mem _ hd))⟩
      rcases mem_insertCell.mp hd with rfl | hd
      · have := hne c (List.mem_cons_self ..)
        simp only
        omega
      · exact hc d hd

/-! ### One byte -/

@[simp] theorem Memory.read_write_self (font : Vector Byte 80) (mem : List Host.Cell) (a : Nat) (b : Byte) :
    Memory.read font (Memory.write font mem a b) a = b := by
  unfold Memory.write
  by_cases h : b = blank font a
  · simp only [h, if_true, Memory.read, findCell_filter_self, Option.getD_none]
  · simp only [h, if_false, Memory.read, findCell_insert_self b (findCell_filter_self mem a), Option.getD_some]

theorem Memory.read_write_other (font : Vector Byte 80) (mem : List Host.Cell) {a a' : Nat} (b : Byte) (h : a' ≠ a) :
    Memory.read font (Memory.write font mem a b) a' = Memory.read font mem a' := by
  unfold Memory.write
  by_cases hb : b = blank font a
  · simp only [hb, if_true, Memory.read, findCell_filter_other mem h]
  · simp only [hb, if_false, Memory.read, findCell_insert_other _ b h, findCell_filter_other mem h]

theorem Memory.wf_nil (font : Vector Byte 80) : Memory.wf font [] :=
  ⟨List.Pairwise.nil, by simp⟩

/-- A write inside memory keeps the canonical form. -/
theorem Memory.wf_write {font : Vector Byte 80} {mem : List Host.Cell} {a : Nat} (b : Byte) (hw : Memory.wf font mem)
    (ha : a < Config.memSize) : Memory.wf font (Memory.write font mem a b) := by
  obtain ⟨hs, hc⟩ := hw
  have hs' : (mem.filter (fun c => c.1 ≠ a)).Pairwise (fun c d => c.1 < d.1) := hs.filter _
  unfold Memory.write
  by_cases hb : b = blank font a
  · simp only [hb, if_true]
    exact ⟨hs', fun c hm => hc c (List.mem_of_mem_filter hm)⟩
  · simp only [hb, if_false]
    refine ⟨insertCell_sorted a b hs' (fun c hm => by simpa using (List.mem_filter.mp hm).2), fun c hm => ?_⟩
    rcases mem_insertCell.mp hm with rfl | hm
    · exact ⟨ha, hb⟩
    · exact hc c (List.mem_of_mem_filter hm)

/-! ### Many bytes -/

@[simp] theorem Memory.readMany_length (font : Vector Byte 80) (mem : List Host.Cell) (a n : Nat) :
    (Memory.readMany font mem a n).length = n := by
  induction n generalizing a with
  | zero => rfl
  | succ n ih => simp [Memory.readMany, ih]

theorem Memory.readMany_get (font : Vector Byte 80) (mem : List Host.Cell) {a n k : Nat} (h : k < n) :
    (Memory.readMany font mem a n)[k]? = some (Memory.read font mem (a + k)) := by
  induction n generalizing a k with
  | zero => omega
  | succ n ih =>
    cases k with
    | zero => simp [Memory.readMany]
    | succ k =>
      simp only [Memory.readMany, List.getElem?_cons_succ]
      rw [ih (by omega)]
      congr 2
      omega

theorem Memory.read_writeMany_outside (font : Vector Byte 80) (mem : List Host.Cell) {base a : Nat} (bs : List Byte)
    (h : a < base ∨ base + bs.length ≤ a) :
    Memory.read font (Memory.writeMany font mem base bs) a = Memory.read font mem a := by
  induction bs generalizing mem base with
  | nil => rfl
  | cons b bs ih =>
    simp only [List.length_cons] at h
    rw [Memory.writeMany, ih _ (by omega), Memory.read_write_other _ _ _ (by omega)]

theorem Memory.read_writeMany_inside (font : Vector Byte 80) (mem : List Host.Cell) {base k : Nat} {bs : List Byte}
    {b : Byte} (h : bs[k]? = some b) : Memory.read font (Memory.writeMany font mem base bs) (base + k) = b := by
  induction bs generalizing mem base k with
  | nil => simp at h
  | cons c bs ih =>
    cases k with
    | zero =>
      simp only [List.getElem?_cons_zero, Option.some.injEq] at h
      rw [Memory.writeMany, Memory.read_writeMany_outside _ _ _ (by omega), Nat.add_zero, Memory.read_write_self, h]
    | succ k =>
      rw [List.getElem?_cons_succ] at h
      rw [Memory.writeMany, show base + (k + 1) = base + 1 + k by omega, ih _ h]

/-- Writing bytes inside memory keeps the canonical form. -/
theorem Memory.wf_writeMany {font : Vector Byte 80} {mem : List Host.Cell} {base : Nat} (bs : List Byte)
    (hw : Memory.wf font mem) (h : base + bs.length ≤ Config.memSize) :
    Memory.wf font (Memory.writeMany font mem base bs) := by
  induction bs generalizing mem base with
  | nil => exact hw
  | cons b bs ih =>
    simp only [List.length_cons] at h
    exact ih (Memory.wf_write b hw (by omega)) (by omega)

end Sys2Proof.Machine
end

