-- ==== Sys2Proof/Laws/State.lean ====
section
/-! SUPPORT. One lemma per field of `State` per named update, each true by definition. -/

namespace Sys2Proof.Machine

-- One thread: these lemmas are many and small, and a worker for each can exceed a memory limit.
set_option Elab.async false

variable (s : State)

/-! ### setV -/

@[simp] theorem setV_v (x : Reg) (b : Byte) : (setV s x b).v = s.v.set x.toNat b x.isLt := rfl
@[simp] theorem setV_i (x : Reg) (b : Byte) : (setV s x b).i = s.i := rfl
@[simp] theorem setV_pc (x : Reg) (b : Byte) : (setV s x b).pc = s.pc := rfl
@[simp] theorem setV_sp (x : Reg) (b : Byte) : (setV s x b).sp = s.sp := rfl
@[simp] theorem setV_stack (x : Reg) (b : Byte) : (setV s x b).stack = s.stack := rfl
@[simp] theorem setV_disp (x : Reg) (b : Byte) : (setV s x b).disp = s.disp := rfl
@[simp] theorem setV_dt (x : Reg) (b : Byte) : (setV s x b).dt = s.dt := rfl
@[simp] theorem setV_st (x : Reg) (b : Byte) : (setV s x b).st = s.st := rfl
@[simp] theorem setV_key (x : Reg) (b : Byte) : (setV s x b).key = s.key := rfl
@[simp] theorem setV_mem (x : Reg) (b : Byte) : (setV s x b).mem = s.mem := rfl
@[simp] theorem setV_run (x : Reg) (b : Byte) : (setV s x b).run = s.run := rfl
@[simp] theorem setV_fault (x : Reg) (b : Byte) : (setV s x b).fault = s.fault := rfl
@[simp] theorem setV_stopReq (x : Reg) (b : Byte) : (setV s x b).stopReq = s.stopReq := rfl
@[simp] theorem setV_font (x : Reg) (b : Byte) : (setV s x b).font = s.font := rfl
@[simp] theorem setV_draws (x : Reg) (b : Byte) : (setV s x b).draws = s.draws := rfl
@[simp] theorem setV_renders (x : Reg) (b : Byte) : (setV s x b).renders = s.renders := rfl
@[simp] theorem setV_renderFails (x : Reg) (b : Byte) : (setV s x b).renderFails = s.renderFails := rfl
@[simp] theorem setV_beeps (x : Reg) (b : Byte) : (setV s x b).beeps = s.beeps := rfl
@[simp] theorem setV_beepFails (x : Reg) (b : Byte) : (setV s x b).beepFails = s.beepFails := rfl

/-! ### setI -/

@[simp] theorem setI_v (w : Word) : (setI s w).v = s.v := rfl
@[simp] theorem setI_i (w : Word) : (setI s w).i = w := rfl
@[simp] theorem setI_pc (w : Word) : (setI s w).pc = s.pc := rfl
@[simp] theorem setI_sp (w : Word) : (setI s w).sp = s.sp := rfl
@[simp] theorem setI_stack (w : Word) : (setI s w).stack = s.stack := rfl
@[simp] theorem setI_disp (w : Word) : (setI s w).disp = s.disp := rfl
@[simp] theorem setI_dt (w : Word) : (setI s w).dt = s.dt := rfl
@[simp] theorem setI_st (w : Word) : (setI s w).st = s.st := rfl
@[simp] theorem setI_key (w : Word) : (setI s w).key = s.key := rfl
@[simp] theorem setI_mem (w : Word) : (setI s w).mem = s.mem := rfl
@[simp] theorem setI_run (w : Word) : (setI s w).run = s.run := rfl
@[simp] theorem setI_fault (w : Word) : (setI s w).fault = s.fault := rfl
@[simp] theorem setI_stopReq (w : Word) : (setI s w).stopReq = s.stopReq := rfl
@[simp] theorem setI_font (w : Word) : (setI s w).font = s.font := rfl
@[simp] theorem setI_draws (w : Word) : (setI s w).draws = s.draws := rfl
@[simp] theorem setI_renders (w : Word) : (setI s w).renders = s.renders := rfl
@[simp] theorem setI_renderFails (w : Word) : (setI s w).renderFails = s.renderFails := rfl
@[simp] theorem setI_beeps (w : Word) : (setI s w).beeps = s.beeps := rfl
@[simp] theorem setI_beepFails (w : Word) : (setI s w).beepFails = s.beepFails := rfl

/-! ### setPc -/

@[simp] theorem setPc_v (w : Word) : (setPc s w).v = s.v := rfl
@[simp] theorem setPc_i (w : Word) : (setPc s w).i = s.i := rfl
@[simp] theorem setPc_pc (w : Word) : (setPc s w).pc = w := rfl
@[simp] theorem setPc_sp (w : Word) : (setPc s w).sp = s.sp := rfl
@[simp] theorem setPc_stack (w : Word) : (setPc s w).stack = s.stack := rfl
@[simp] theorem setPc_disp (w : Word) : (setPc s w).disp = s.disp := rfl
@[simp] theorem setPc_dt (w : Word) : (setPc s w).dt = s.dt := rfl
@[simp] theorem setPc_st (w : Word) : (setPc s w).st = s.st := rfl
@[simp] theorem setPc_key (w : Word) : (setPc s w).key = s.key := rfl
@[simp] theorem setPc_mem (w : Word) : (setPc s w).mem = s.mem := rfl
@[simp] theorem setPc_run (w : Word) : (setPc s w).run = s.run := rfl
@[simp] theorem setPc_fault (w : Word) : (setPc s w).fault = s.fault := rfl
@[simp] theorem setPc_stopReq (w : Word) : (setPc s w).stopReq = s.stopReq := rfl
@[simp] theorem setPc_font (w : Word) : (setPc s w).font = s.font := rfl
@[simp] theorem setPc_draws (w : Word) : (setPc s w).draws = s.draws := rfl
@[simp] theorem setPc_renders (w : Word) : (setPc s w).renders = s.renders := rfl
@[simp] theorem setPc_renderFails (w : Word) : (setPc s w).renderFails = s.renderFails := rfl
@[simp] theorem setPc_beeps (w : Word) : (setPc s w).beeps = s.beeps := rfl
@[simp] theorem setPc_beepFails (w : Word) : (setPc s w).beepFails = s.beepFails := rfl

/-! ### advancePc -/

@[simp] theorem advancePc_v : (advancePc s).v = s.v := rfl
@[simp] theorem advancePc_i : (advancePc s).i = s.i := rfl
@[simp] theorem advancePc_pc : (advancePc s).pc = s.pc + 2 := rfl
@[simp] theorem advancePc_sp : (advancePc s).sp = s.sp := rfl
@[simp] theorem advancePc_stack : (advancePc s).stack = s.stack := rfl
@[simp] theorem advancePc_disp : (advancePc s).disp = s.disp := rfl
@[simp] theorem advancePc_dt : (advancePc s).dt = s.dt := rfl
@[simp] theorem advancePc_st : (advancePc s).st = s.st := rfl
@[simp] theorem advancePc_key : (advancePc s).key = s.key := rfl
@[simp] theorem advancePc_mem : (advancePc s).mem = s.mem := rfl
@[simp] theorem advancePc_run : (advancePc s).run = s.run := rfl
@[simp] theorem advancePc_fault : (advancePc s).fault = s.fault := rfl
@[simp] theorem advancePc_stopReq : (advancePc s).stopReq = s.stopReq := rfl
@[simp] theorem advancePc_font : (advancePc s).font = s.font := rfl
@[simp] theorem advancePc_draws : (advancePc s).draws = s.draws := rfl
@[simp] theorem advancePc_renders : (advancePc s).renders = s.renders := rfl
@[simp] theorem advancePc_renderFails : (advancePc s).renderFails = s.renderFails := rfl
@[simp] theorem advancePc_beeps : (advancePc s).beeps = s.beeps := rfl
@[simp] theorem advancePc_beepFails : (advancePc s).beepFails = s.beepFails := rfl

/-! ### setDt -/

@[simp] theorem setDt_v (b : Byte) : (setDt s b).v = s.v := rfl
@[simp] theorem setDt_i (b : Byte) : (setDt s b).i = s.i := rfl
@[simp] theorem setDt_pc (b : Byte) : (setDt s b).pc = s.pc := rfl
@[simp] theorem setDt_sp (b : Byte) : (setDt s b).sp = s.sp := rfl
@[simp] theorem setDt_stack (b : Byte) : (setDt s b).stack = s.stack := rfl
@[simp] theorem setDt_disp (b : Byte) : (setDt s b).disp = s.disp := rfl
@[simp] theorem setDt_dt (b : Byte) : (setDt s b).dt = b := rfl
@[simp] theorem setDt_st (b : Byte) : (setDt s b).st = s.st := rfl
@[simp] theorem setDt_key (b : Byte) : (setDt s b).key = s.key := rfl
@[simp] theorem setDt_mem (b : Byte) : (setDt s b).mem = s.mem := rfl
@[simp] theorem setDt_run (b : Byte) : (setDt s b).run = s.run := rfl
@[simp] theorem setDt_fault (b : Byte) : (setDt s b).fault = s.fault := rfl
@[simp] theorem setDt_stopReq (b : Byte) : (setDt s b).stopReq = s.stopReq := rfl
@[simp] theorem setDt_font (b : Byte) : (setDt s b).font = s.font := rfl
@[simp] theorem setDt_draws (b : Byte) : (setDt s b).draws = s.draws := rfl
@[simp] theorem setDt_renders (b : Byte) : (setDt s b).renders = s.renders := rfl
@[simp] theorem setDt_renderFails (b : Byte) : (setDt s b).renderFails = s.renderFails := rfl
@[simp] theorem setDt_beeps (b : Byte) : (setDt s b).beeps = s.beeps := rfl
@[simp] theorem setDt_beepFails (b : Byte) : (setDt s b).beepFails = s.beepFails := rfl

/-! ### setSt -/

@[simp] theorem setSt_v (b : Byte) : (setSt s b).v = s.v := rfl
@[simp] theorem setSt_i (b : Byte) : (setSt s b).i = s.i := rfl
@[simp] theorem setSt_pc (b : Byte) : (setSt s b).pc = s.pc := rfl
@[simp] theorem setSt_sp (b : Byte) : (setSt s b).sp = s.sp := rfl
@[simp] theorem setSt_stack (b : Byte) : (setSt s b).stack = s.stack := rfl
@[simp] theorem setSt_disp (b : Byte) : (setSt s b).disp = s.disp := rfl
@[simp] theorem setSt_dt (b : Byte) : (setSt s b).dt = s.dt := rfl
@[simp] theorem setSt_st (b : Byte) : (setSt s b).st = b := rfl
@[simp] theorem setSt_key (b : Byte) : (setSt s b).key = s.key := rfl
@[simp] theorem setSt_mem (b : Byte) : (setSt s b).mem = s.mem := rfl
@[simp] theorem setSt_run (b : Byte) : (setSt s b).run = s.run := rfl
@[simp] theorem setSt_fault (b : Byte) : (setSt s b).fault = s.fault := rfl
@[simp] theorem setSt_stopReq (b : Byte) : (setSt s b).stopReq = s.stopReq := rfl
@[simp] theorem setSt_font (b : Byte) : (setSt s b).font = s.font := rfl
@[simp] theorem setSt_draws (b : Byte) : (setSt s b).draws = s.draws := rfl
@[simp] theorem setSt_renders (b : Byte) : (setSt s b).renders = s.renders := rfl
@[simp] theorem setSt_renderFails (b : Byte) : (setSt s b).renderFails = s.renderFails := rfl
@[simp] theorem setSt_beeps (b : Byte) : (setSt s b).beeps = s.beeps := rfl
@[simp] theorem setSt_beepFails (b : Byte) : (setSt s b).beepFails = s.beepFails := rfl

/-! ### raiseFault -/

@[simp] theorem raiseFault_v (c : Cause) (info : Word) : (raiseFault s c info).v = s.v := rfl
@[simp] theorem raiseFault_i (c : Cause) (info : Word) : (raiseFault s c info).i = s.i := rfl
@[simp] theorem raiseFault_pc (c : Cause) (info : Word) : (raiseFault s c info).pc = s.pc := rfl
@[simp] theorem raiseFault_sp (c : Cause) (info : Word) : (raiseFault s c info).sp = s.sp := rfl
@[simp] theorem raiseFault_stack (c : Cause) (info : Word) : (raiseFault s c info).stack = s.stack := rfl
@[simp] theorem raiseFault_disp (c : Cause) (info : Word) : (raiseFault s c info).disp = s.disp := rfl
@[simp] theorem raiseFault_dt (c : Cause) (info : Word) : (raiseFault s c info).dt = s.dt := rfl
@[simp] theorem raiseFault_st (c : Cause) (info : Word) : (raiseFault s c info).st = s.st := rfl
@[simp] theorem raiseFault_key (c : Cause) (info : Word) : (raiseFault s c info).key = s.key := rfl
@[simp] theorem raiseFault_mem (c : Cause) (info : Word) : (raiseFault s c info).mem = s.mem := rfl
@[simp] theorem raiseFault_run (c : Cause) (info : Word) : (raiseFault s c info).run = .faulted := rfl
@[simp] theorem raiseFault_fault (c : Cause) (info : Word) : (raiseFault s c info).fault = ⟨c, info⟩ := rfl
@[simp] theorem raiseFault_stopReq (c : Cause) (info : Word) : (raiseFault s c info).stopReq = false := rfl
@[simp] theorem raiseFault_font (c : Cause) (info : Word) : (raiseFault s c info).font = s.font := rfl
@[simp] theorem raiseFault_draws (c : Cause) (info : Word) : (raiseFault s c info).draws = s.draws := rfl
@[simp] theorem raiseFault_renders (c : Cause) (info : Word) : (raiseFault s c info).renders = s.renders := rfl
@[simp] theorem raiseFault_renderFails (c : Cause) (info : Word) : (raiseFault s c info).renderFails = s.renderFails := rfl
@[simp] theorem raiseFault_beeps (c : Cause) (info : Word) : (raiseFault s c info).beeps = s.beeps := rfl
@[simp] theorem raiseFault_beepFails (c : Cause) (info : Word) : (raiseFault s c info).beepFails = s.beepFails := rfl

/-! ### resetCore -/

@[simp] theorem resetCore_v : (resetCore s).v = State.reset.v := rfl
@[simp] theorem resetCore_i : (resetCore s).i = State.reset.i := rfl
@[simp] theorem resetCore_pc : (resetCore s).pc = State.reset.pc := rfl
@[simp] theorem resetCore_sp : (resetCore s).sp = State.reset.sp := rfl
@[simp] theorem resetCore_stack : (resetCore s).stack = State.reset.stack := rfl
@[simp] theorem resetCore_disp : (resetCore s).disp = State.reset.disp := rfl
@[simp] theorem resetCore_dt : (resetCore s).dt = State.reset.dt := rfl
@[simp] theorem resetCore_st : (resetCore s).st = State.reset.st := rfl
@[simp] theorem resetCore_key : (resetCore s).key = State.reset.key := rfl
@[simp] theorem resetCore_mem : (resetCore s).mem = State.reset.mem := rfl
@[simp] theorem resetCore_run : (resetCore s).run = State.reset.run := rfl
@[simp] theorem resetCore_fault : (resetCore s).fault = State.reset.fault := rfl
@[simp] theorem resetCore_stopReq : (resetCore s).stopReq = State.reset.stopReq := rfl
@[simp] theorem resetCore_font : (resetCore s).font = s.font := rfl
@[simp] theorem resetCore_draws : (resetCore s).draws = s.draws := rfl
@[simp] theorem resetCore_renders : (resetCore s).renders = s.renders := rfl
@[simp] theorem resetCore_renderFails : (resetCore s).renderFails = s.renderFails := rfl
@[simp] theorem resetCore_beeps : (resetCore s).beeps = s.beeps := rfl
@[simp] theorem resetCore_beepFails : (resetCore s).beepFails = s.beepFails := rfl

/-! ### skipIf: everything but pc -/

@[simp] theorem skipIf_v (c : Bool) : (skipIf s c).v = s.v := by cases c <;> rfl
@[simp] theorem skipIf_i (c : Bool) : (skipIf s c).i = s.i := by cases c <;> rfl
@[simp] theorem skipIf_pc (c : Bool) : (skipIf s c).pc = if c then s.pc + 2 else s.pc := by cases c <;> rfl
@[simp] theorem skipIf_sp (c : Bool) : (skipIf s c).sp = s.sp := by cases c <;> rfl
@[simp] theorem skipIf_stack (c : Bool) : (skipIf s c).stack = s.stack := by cases c <;> rfl
@[simp] theorem skipIf_disp (c : Bool) : (skipIf s c).disp = s.disp := by cases c <;> rfl
@[simp] theorem skipIf_dt (c : Bool) : (skipIf s c).dt = s.dt := by cases c <;> rfl
@[simp] theorem skipIf_st (c : Bool) : (skipIf s c).st = s.st := by cases c <;> rfl
@[simp] theorem skipIf_key (c : Bool) : (skipIf s c).key = s.key := by cases c <;> rfl
@[simp] theorem skipIf_mem (c : Bool) : (skipIf s c).mem = s.mem := by cases c <;> rfl
@[simp] theorem skipIf_run (c : Bool) : (skipIf s c).run = s.run := by cases c <;> rfl
@[simp] theorem skipIf_fault (c : Bool) : (skipIf s c).fault = s.fault := by cases c <;> rfl
@[simp] theorem skipIf_stopReq (c : Bool) : (skipIf s c).stopReq = s.stopReq := by cases c <;> rfl
@[simp] theorem skipIf_font (c : Bool) : (skipIf s c).font = s.font := by cases c <;> rfl
@[simp] theorem skipIf_draws (c : Bool) : (skipIf s c).draws = s.draws := by cases c <;> rfl
@[simp] theorem skipIf_renders (c : Bool) : (skipIf s c).renders = s.renders := by cases c <;> rfl
@[simp] theorem skipIf_renderFails (c : Bool) : (skipIf s c).renderFails = s.renderFails := by cases c <;> rfl
@[simp] theorem skipIf_beeps (c : Bool) : (skipIf s c).beeps = s.beeps := by cases c <;> rfl
@[simp] theorem skipIf_beepFails (c : Bool) : (skipIf s c).beepFails = s.beepFails := by cases c <;> rfl

/-! ### emitRender: everything but the fault parts, which `emitRender_cases` (Laws/Ops.lean) gives -/

@[simp] theorem emitRender_v : (emitRender s).v = s.v := by unfold emitRender; split <;> rfl
@[simp] theorem emitRender_i : (emitRender s).i = s.i := by unfold emitRender; split <;> rfl
@[simp] theorem emitRender_pc : (emitRender s).pc = s.pc := by unfold emitRender; split <;> rfl
@[simp] theorem emitRender_sp : (emitRender s).sp = s.sp := by unfold emitRender; split <;> rfl
@[simp] theorem emitRender_stack : (emitRender s).stack = s.stack := by unfold emitRender; split <;> rfl
@[simp] theorem emitRender_disp : (emitRender s).disp = s.disp := by unfold emitRender; split <;> rfl
@[simp] theorem emitRender_dt : (emitRender s).dt = s.dt := by unfold emitRender; split <;> rfl
@[simp] theorem emitRender_st : (emitRender s).st = s.st := by unfold emitRender; split <;> rfl
@[simp] theorem emitRender_key : (emitRender s).key = s.key := by unfold emitRender; split <;> rfl
@[simp] theorem emitRender_mem : (emitRender s).mem = s.mem := by unfold emitRender; split <;> rfl
@[simp] theorem emitRender_font : (emitRender s).font = s.font := by unfold emitRender; split <;> rfl
@[simp] theorem emitRender_draws : (emitRender s).draws = s.draws := by unfold emitRender; split <;> rfl
@[simp] theorem emitRender_renders : (emitRender s).renders = s.renders + 1 := by unfold emitRender; split <;> rfl
@[simp] theorem emitRender_renderFails : (emitRender s).renderFails = s.renderFails := by unfold emitRender; split <;> rfl
@[simp] theorem emitRender_beeps : (emitRender s).beeps = s.beeps := by unfold emitRender; split <;> rfl
@[simp] theorem emitRender_beepFails : (emitRender s).beepFails = s.beepFails := by unfold emitRender; split <;> rfl

/-! ### setRegs: everything but v -/

@[simp] theorem setRegs_i (k : Nat) (bs : List Byte) : (setRegs s k bs).i = s.i := by
  induction bs generalizing s k with
  | nil => rfl
  | cons b bs ih => simp [setRegs, ih]
@[simp] theorem setRegs_pc (k : Nat) (bs : List Byte) : (setRegs s k bs).pc = s.pc := by
  induction bs generalizing s k with
  | nil => rfl
  | cons b bs ih => simp [setRegs, ih]
@[simp] theorem setRegs_sp (k : Nat) (bs : List Byte) : (setRegs s k bs).sp = s.sp := by
  induction bs generalizing s k with
  | nil => rfl
  | cons b bs ih => simp [setRegs, ih]
@[simp] theorem setRegs_stack (k : Nat) (bs : List Byte) : (setRegs s k bs).stack = s.stack := by
  induction bs generalizing s k with
  | nil => rfl
  | cons b bs ih => simp [setRegs, ih]
@[simp] theorem setRegs_disp (k : Nat) (bs : List Byte) : (setRegs s k bs).disp = s.disp := by
  induction bs generalizing s k with
  | nil => rfl
  | cons b bs ih => simp [setRegs, ih]
@[simp] theorem setRegs_dt (k : Nat) (bs : List Byte) : (setRegs s k bs).dt = s.dt := by
  induction bs generalizing s k with
  | nil => rfl
  | cons b bs ih => simp [setRegs, ih]
@[simp] theorem setRegs_st (k : Nat) (bs : List Byte) : (setRegs s k bs).st = s.st := by
  induction bs generalizing s k with
  | nil => rfl
  | cons b bs ih => simp [setRegs, ih]
@[simp] theorem setRegs_key (k : Nat) (bs : List Byte) : (setRegs s k bs).key = s.key := by
  induction bs generalizing s k with
  | nil => rfl
  | cons b bs ih => simp [setRegs, ih]
@[simp] theorem setRegs_mem (k : Nat) (bs : List Byte) : (setRegs s k bs).mem = s.mem := by
  induction bs generalizing s k with
  | nil => rfl
  | cons b bs ih => simp [setRegs, ih]
@[simp] theorem setRegs_run (k : Nat) (bs : List Byte) : (setRegs s k bs).run = s.run := by
  induction bs generalizing s k with
  | nil => rfl
  | cons b bs ih => simp [setRegs, ih]
@[simp] theorem setRegs_fault (k : Nat) (bs : List Byte) : (setRegs s k bs).fault = s.fault := by
  induction bs generalizing s k with
  | nil => rfl
  | cons b bs ih => simp [setRegs, ih]
@[simp] theorem setRegs_stopReq (k : Nat) (bs : List Byte) : (setRegs s k bs).stopReq = s.stopReq := by
  induction bs generalizing s k with
  | nil => rfl
  | cons b bs ih => simp [setRegs, ih]
@[simp] theorem setRegs_font (k : Nat) (bs : List Byte) : (setRegs s k bs).font = s.font := by
  induction bs generalizing s k with
  | nil => rfl
  | cons b bs ih => simp [setRegs, ih]
@[simp] theorem setRegs_draws (k : Nat) (bs : List Byte) : (setRegs s k bs).draws = s.draws := by
  induction bs generalizing s k with
  | nil => rfl
  | cons b bs ih => simp [setRegs, ih]
@[simp] theorem setRegs_renders (k : Nat) (bs : List Byte) : (setRegs s k bs).renders = s.renders := by
  induction bs generalizing s k with
  | nil => rfl
  | cons b bs ih => simp [setRegs, ih]
@[simp] theorem setRegs_renderFails (k : Nat) (bs : List Byte) : (setRegs s k bs).renderFails = s.renderFails := by
  induction bs generalizing s k with
  | nil => rfl
  | cons b bs ih => simp [setRegs, ih]
@[simp] theorem setRegs_beeps (k : Nat) (bs : List Byte) : (setRegs s k bs).beeps = s.beeps := by
  induction bs generalizing s k with
  | nil => rfl
  | cons b bs ih => simp [setRegs, ih]
@[simp] theorem setRegs_beepFails (k : Nat) (bs : List Byte) : (setRegs s k bs).beepFails = s.beepFails := by
  induction bs generalizing s k with
  | nil => rfl
  | cons b bs ih => simp [setRegs, ih]

end Sys2Proof.Machine
end

