-- ==== Sys2Proof/Laws/Ops.lean ====
section
/-! SUPPORT. One law per shared operation, saying everything it can do. -/

namespace Sys2Proof.Machine

/-! ### Registers -/

/-- What a register reads after one register was written. -/
theorem readV_setV (s : State) (x z : Reg) (b : Byte) : readV (setV s x b) z = if z = x then b else readV s z := by
  unfold readV setV
  by_cases h : z = x
  · subst h
    simp
  · have : x.toNat ≠ z.toNat := fun hn => h (BitVec.eq_of_toNat_eq hn.symm)
    simp [h, this]

@[simp] theorem readV_setV_self (s : State) (x : Reg) (b : Byte) : readV (setV s x b) x = b := by simp [readV_setV]

theorem readV_setV_other (s : State) {x z : Reg} (b : Byte) (h : z ≠ x) : readV (setV s x b) z = readV s z := by
  simp [readV_setV, h]

/-- Registers are read from `v` alone. -/
theorem readV_congr {s t : State} (h : t.v = s.v) (x : Reg) : readV t x = readV s x := by simp [readV, h]

/-- What a register reads after `setRegs`: the byte it was given, if it was given one. -/
theorem readV_setRegs (s : State) (k : Nat) (bs : List Byte) (h : k + bs.length ≤ 16) (z : Reg) :
    readV (setRegs s k bs) z = if k ≤ z.toNat then (bs[z.toNat - k]?).getD (readV s z) else readV s z := by
  induction bs generalizing s k with
  | nil => simp [setRegs]
  | cons b bs ih =>
    simp only [List.length_cons] at h
    rw [setRegs, ih _ _ (by omega)]
    have hk : (BitVec.ofNat 4 k).toNat = k := by simp [BitVec.toNat_ofNat]; omega
    by_cases hz : k + 1 ≤ z.toNat
    · have hzk : z ≠ BitVec.ofNat 4 k := fun e => by rw [e, hk] at hz; omega
      rw [if_pos hz, if_pos (by omega), readV_setV_other _ _ hzk, show z.toNat - k = z.toNat - (k + 1) + 1 by omega,
        List.getElem?_cons_succ]
    · by_cases he : z.toNat = k
      · have hzk : z = BitVec.ofNat 4 k := BitVec.eq_of_toNat_eq (by rw [hk, he])
        rw [if_neg hz, if_pos (by omega), hzk, readV_setV_self, hk]
        simp
      · have hzk : z ≠ BitVec.ofNat 4 k := fun e => he (by rw [e, hk])
        rw [if_neg hz, if_neg (by omega), readV_setV_other _ _ hzk]

/-- `setRegs` writes nothing but registers. -/
theorem setRegs_eq (s : State) (k : Nat) (bs : List Byte) : setRegs s k bs = { s with v := (setRegs s k bs).v } := by
  induction bs generalizing s k with
  | nil => rfl
  | cons b bs ih =>
    rw [setRegs, ih]
    rfl

/-- `skipIf` writes nothing but pc. -/
theorem skipIf_eq (s : State) (c : Bool) : skipIf s c = { s with pc := if c then s.pc + 2 else s.pc } := by
  unfold skipIf
  split <;> rfl

/-! ### Memory -/

/-- A byte is read from `font` and `mem` alone. -/
theorem readByte_congr {s t : State} (hf : t.font = s.font) (hm : t.mem = s.mem) (a : Nat) : readByte t a = readByte s a := by
  simp [readByte, hf, hm]

theorem loadBytes_cases (s : State) (base count : Nat) :
    ((count = 0 ∨ base + count ≤ Config.memSize) ∧
        loadBytes s base count = some (Memory.readMany s.font s.mem base count)) ∨
      (count ≠ 0 ∧ Config.memSize < base + count ∧ loadBytes s base count = none) := by
  unfold loadBytes transferOk
  by_cases h : count = 0 ∨ base + count ≤ Config.memSize
  · exact .inl ⟨h, by simp [h]⟩
  · refine .inr ⟨fun e => h (.inl e), by omega, by simp [h]⟩

theorem storeBytes_cases (s : State) (base : Nat) (bs : List Byte) :
    ((bs.length = 0 ∨ base + bs.length ≤ Config.memSize) ∧
        storeBytes s base bs = some { s with mem := Memory.writeMany s.font s.mem base bs }) ∨
      (bs.length ≠ 0 ∧ Config.memSize < base + bs.length ∧ storeBytes s base bs = none) := by
  unfold storeBytes transferOk
  by_cases h : bs.length = 0 ∨ base + bs.length ≤ Config.memSize
  · exact .inl ⟨h, if_pos (decide_eq_true h)⟩
  · exact .inr ⟨fun e => h (.inl e), by omega, if_neg (by simpa only [decide_eq_true_eq] using h)⟩

theorem fetchWord_cases (s : State) :
    (s.pc.toNat + 1 < Config.memSize ∧ fetchWord s = some (bytesWord (Memory.read s.font s.mem s.pc.toNat)
        (Memory.read s.font s.mem (s.pc.toNat + 1)))) ∨
      (Config.memSize ≤ s.pc.toNat + 1 ∧ fetchWord s = none) := by
  unfold fetchWord
  by_cases h : s.pc.toNat + 1 < Config.memSize
  · exact .inl ⟨h, by simp [h]⟩
  · exact .inr ⟨by omega, by simp [h]⟩

/-- Storing bytes inside memory keeps the canonical form. -/
theorem storeBytes_wf {s t : State} {base : Nat} {bs : List Byte} (hw : Memory.wf s.font s.mem)
    (h : storeBytes s base bs = some t) : Memory.wf t.font t.mem := by
  rcases storeBytes_cases s base bs with ⟨hok, he⟩ | ⟨-, -, he⟩
  · rw [he] at h
    obtain rfl := Option.some.inj h
    rcases hok with h0 | hb
    · obtain rfl := List.length_eq_zero_iff.mp h0
      exact hw
    · exact Memory.wf_writeMany bs hw hb
  · rw [he] at h
    cases h

/-- Placing an instruction keeps the canonical form. -/
theorem placeWord_wf {s : State} (w : Word) (hw : Memory.wf s.font s.mem) :
    Memory.wf (placeWord s w).font (placeWord s w).mem := by
  refine Memory.wf_writeMany _ hw ?_
  have : (placeAddress s).toNat + 1 < Config.memSize := by
    unfold placeAddress
    split
    · assumption
    · decide
  have hl : (wordBytes w).length = 2 := rfl
  omega

/-! ### The stack -/

theorem push_cases (s : State) (w : Word) :
    (∃ h : s.sp.val < 16,
        push s w = some { s with stack := s.stack.set s.sp.val w h, sp := ⟨s.sp.val + 1, by omega⟩ }) ∨
      (s.sp.val = 16 ∧ push s w = none) := by
  unfold push
  by_cases h : s.sp.val < 16
  · exact .inl ⟨h, by simp [h]⟩
  · exact .inr ⟨by omega, by simp [h]⟩

theorem pop_cases (s : State) :
    (∃ h : 0 < s.sp.val,
        pop s = some (s.stack[s.sp.val - 1]'(by omega), { s with sp := ⟨s.sp.val - 1, by omega⟩ })) ∨
      (s.sp.val = 0 ∧ pop s = none) := by
  unfold pop
  by_cases h : 0 < s.sp.val
  · exact .inl ⟨h, by simp [h]⟩
  · exact .inr ⟨by omega, by simp [h]⟩

/-! ### Events -/

theorem emitRender_cases (s : State) :
    (renderOk s s.renders = true ∧ emitRender s = { s with renders := s.renders + 1 }) ∨
      (renderOk s s.renders = false ∧ emitRender s = raiseFault { s with renders := s.renders + 1 } .rendererFault 0) := by
  unfold emitRender
  by_cases h : renderOk s s.renders = true
  · exact .inl ⟨h, by simp [h]⟩
  · exact .inr ⟨by simpa using h, by simp [h]⟩

end Sys2Proof.Machine
end

