-- ==== Sys2Proof/Laws/Cycle.lean ====
section
/-! SUPPORT. What the parts of a step can do: the two timers and the tick. -/

namespace Sys2Proof.Machine

/-! ### The delay timer: everything but dt stays -/

@[simp] theorem tickDelay_v (s : State) : (tickDelay s).v = s.v := by unfold tickDelay; split <;> rfl
@[simp] theorem tickDelay_i (s : State) : (tickDelay s).i = s.i := by unfold tickDelay; split <;> rfl
@[simp] theorem tickDelay_pc (s : State) : (tickDelay s).pc = s.pc := by unfold tickDelay; split <;> rfl
@[simp] theorem tickDelay_sp (s : State) : (tickDelay s).sp = s.sp := by unfold tickDelay; split <;> rfl
@[simp] theorem tickDelay_stack (s : State) : (tickDelay s).stack = s.stack := by unfold tickDelay; split <;> rfl
@[simp] theorem tickDelay_disp (s : State) : (tickDelay s).disp = s.disp := by unfold tickDelay; split <;> rfl
@[simp] theorem tickDelay_st (s : State) : (tickDelay s).st = s.st := by unfold tickDelay; split <;> rfl
@[simp] theorem tickDelay_key (s : State) : (tickDelay s).key = s.key := by unfold tickDelay; split <;> rfl
@[simp] theorem tickDelay_mem (s : State) : (tickDelay s).mem = s.mem := by unfold tickDelay; split <;> rfl
@[simp] theorem tickDelay_run (s : State) : (tickDelay s).run = s.run := by unfold tickDelay; split <;> rfl
@[simp] theorem tickDelay_fault (s : State) : (tickDelay s).fault = s.fault := by unfold tickDelay; split <;> rfl
@[simp] theorem tickDelay_stopReq (s : State) : (tickDelay s).stopReq = s.stopReq := by unfold tickDelay; split <;> rfl
@[simp] theorem tickDelay_font (s : State) : (tickDelay s).font = s.font := by unfold tickDelay; split <;> rfl
@[simp] theorem tickDelay_draws (s : State) : (tickDelay s).draws = s.draws := by unfold tickDelay; split <;> rfl
@[simp] theorem tickDelay_renders (s : State) : (tickDelay s).renders = s.renders := by unfold tickDelay; split <;> rfl
@[simp] theorem tickDelay_renderFails (s : State) : (tickDelay s).renderFails = s.renderFails := by unfold tickDelay; split <;> rfl
@[simp] theorem tickDelay_beeps (s : State) : (tickDelay s).beeps = s.beeps := by unfold tickDelay; split <;> rfl
@[simp] theorem tickDelay_beepFails (s : State) : (tickDelay s).beepFails = s.beepFails := by unfold tickDelay; split <;> rfl

/-- DT counts down and stays at 0. -/
theorem tickDelay_dt (s : State) : (tickDelay s).dt.toNat = s.dt.toNat - 1 := by
  unfold tickDelay
  split
  · rename_i h
    simp [h]
  · rename_i h
    have h0 : s.dt.toNat ≠ 0 := fun e => h (BitVec.eq_of_toNat_eq (by simpa using e))
    have := s.dt.isLt
    show (s.dt - 1).toNat = _
    rw [BitVec.toNat_sub]
    simp
    omega

/-! ### The sound timer -/

@[simp] theorem beepOk_tickDelay (s : State) (n : Nat) : beepOk (tickDelay s) n = beepOk s n := by simp [beepOk]

theorem tickSound_cases (s : State) :
    (s.st = 0 ∧ tickSound s = s) ∨
      (s.st ≠ 0 ∧ beepOk s s.beeps = true ∧ tickSound s = { s with beeps := s.beeps + 1, st := s.st - 1 }) ∨
      (s.st ≠ 0 ∧ beepOk s s.beeps = false ∧
        tickSound s = raiseFault { s with beeps := s.beeps + 1 } .rendererFault 1) := by
  unfold tickSound
  by_cases h : s.st = 0
  · exact .inl ⟨h, if_pos h⟩
  · rw [if_neg h]
    by_cases hb : beepOk s s.beeps = true
    · exact .inr (.inl ⟨h, hb, if_pos hb⟩)
    · exact .inr (.inr ⟨h, by simpa using hb, if_neg hb⟩)

/-- The timer phase writes nothing but the timers, the count of Beeps and what a fault writes. -/
theorem timerPhase_eq (s : State) :
    timerPhase s =
      { s with
        dt := (timerPhase s).dt, st := (timerPhase s).st, beeps := (timerPhase s).beeps, run := (timerPhase s).run,
        fault := (timerPhase s).fault, stopReq := (timerPhase s).stopReq } := by
  have hd : tickDelay s = { s with dt := (tickDelay s).dt } := by unfold tickDelay; split <;> rfl
  unfold timerPhase
  rcases tickSound_cases (tickDelay s) with ⟨-, e⟩ | ⟨-, -, e⟩ | ⟨-, -, e⟩
  · rw [e, hd]
  · rw [e, hd]
  · rw [e, hd]
    rfl

/-! ### The tick, over any execute phase -/

theorem tick_cases (execute : Instr → State → Host.Outcome State Fault Refusal) (s : State) :
    (s.run ≠ .running ∧ tick execute s = .next s) ∨
      (s.run = .running ∧ s.stopReq = true ∧ tick execute s = .next { s with run := .idle, stopReq := false }) ∨
      (s.run = .running ∧ s.stopReq = false ∧ fetchWord s = none ∧
        tick execute s = .next (raiseFault s .decodeFault s.pc)) ∨
      (s.run = .running ∧ s.stopReq = false ∧ ∃ w, fetchWord s = some w ∧ decodeWord w = none ∧
        tick execute s = .next (raiseFault (advancePc s) .unknownOpcode w)) ∨
      (s.run = .running ∧ s.stopReq = false ∧ ∃ w i, fetchWord s = some w ∧ decodeWord w = some i ∧
        tick execute s = afterExecute (execute i (advancePc s))) := by
  unfold tick
  cases hr : s.run with
  | idle => exact .inl ⟨by decide, rfl⟩
  | faulted => exact .inl ⟨by decide, rfl⟩
  | running =>
    refine .inr ?_
    cases hs : s.stopReq with
    | true => exact .inl ⟨rfl, rfl, rfl⟩
    | false =>
      refine .inr ?_
      cases hw : fetchWord s with
      | none => exact .inl ⟨rfl, rfl, rfl, by simp [runCycle, hw]⟩
      | some w =>
        refine .inr ?_
        cases hd : decodeWord w with
        | none => exact .inl ⟨rfl, rfl, w, rfl, hd, by simp [runCycle, hw, hd]⟩
        | some i => exact .inr ⟨rfl, rfl, w, i, rfl, hd, by simp [runCycle, hw, hd]⟩

end Sys2Proof.Machine
end

