-- ==== Sys2Proof/Laws/Display.lean ====
section
/-! SUPPORT. The laws of one pixel. -/

namespace Sys2Proof.Machine

@[simp] theorem pixel_clearedDisplay (r c : Nat) : pixel clearedDisplay r c = false := by
  simp [pixel, clearedDisplay]

/-- What a pixel reads after one pixel was written. -/
theorem pixel_setPixel (d : Display) (r c r' c' : Nat) (b : Bool) :
    pixel (setPixel d r c b) r' c' = if r' % 32 = r % 32 ∧ c' % 64 = c % 64 then b else pixel d r' c' := by
  unfold pixel setPixel
  by_cases hr : r % 32 = r' % 32
  · by_cases hc : c % 64 = c' % 64
    · simp [hr, hc]
    · simp [hr, hc, Ne.symm hc]
  · simp [hr, Ne.symm hr]

/-- Two displays that read the same at every pixel are equal. -/
theorem display_ext {d e : Display} (h : ∀ r c, r < 32 → c < 64 → pixel d r c = pixel e r c) : d = e := by
  ext r hr c hc
  have := h r c hr hc
  simpa [pixel, Nat.mod_eq_of_lt hr, Nat.mod_eq_of_lt hc] using this

/-- One plotted bit: the pixel is XORed, every other pixel stays. -/
theorem pixel_plot (acc : Display × Bool) (r c r' c' : Nat) (bit : Bool) :
    pixel (plot acc r c bit).1 r' c' =
      if r' % 32 = r % 32 ∧ c' % 64 = c % 64 then pixel acc.1 r c ^^ bit else pixel acc.1 r' c' := by
  simp [plot, pixel_setPixel]

end Sys2Proof.Machine
end

