-- ==== Sys2Proof/Laws/Encoding.lean ====
section
/-! SUPPORT. The laws of the opcode map: the rows are disjoint (R85), and a word that a row selects decodes by that row. -/

namespace Sys2Proof

/-- Every instruction is well formed: its fields carry their widths. -/
theorem instr_wf (i : Instr) : i.wf = true := by
  cases i <;> simp only [Instr.wf, Instr.operands, Instr.format, Operands.wf, Bool.and_eq_true, decide_eq_true_eq] <;>
    first | trivial | (and_intros <;> exact BitVec.isLt _)

/-- No word is selected by two rows. -/
def Row.disjoint (r q : Row) : Bool := (r.mask &&& q.mask) &&& (r.bits ^^^ q.bits) != 0

theorem rows_disjoint : rows.Pairwise (fun r q => r.disjoint q = true) := by decide

theorem rows_length : rows.length = 34 := by decide

/-- A word selected by two rows refutes their being disjoint. -/
theorem not_disjoint_of_selects {r q : Row} {w : Word} (hr : r.selects w = true) (hq : q.selects w = true) :
    r.disjoint q = false := by
  simp only [Row.selects, beq_iff_eq] at hr hq
  simp only [Row.disjoint, bne_eq_false_iff_eq, ← hr, ← hq]
  ext k hk
  rw [BitVec.getElem_and, BitVec.getElem_and, BitVec.getElem_xor, BitVec.getElem_and, BitVec.getElem_and]
  cases w[k] <;> cases r.mask[k] <;> cases q.mask[k] <;> simp

/-- In a list of disjoint rows the search finds the one row that selects the word. -/
theorem find_of_selects {l : List Row} (hd : l.Pairwise (fun r q => r.disjoint q = true)) {r : Row} (hm : r ∈ l) {w : Word}
    (hs : r.selects w = true) : l.find? (fun q => q.selects w) = some r := by
  induction l with
  | nil => cases hm
  | cons q qs ih =>
    obtain ⟨hq, hqs⟩ := List.pairwise_cons.mp hd
    rcases List.mem_cons.mp hm with rfl | hm
    · simp [hs]
    · have hne : q.selects w = false := by
        by_contra hc
        have := not_disjoint_of_selects (by simpa using hc) hs
        rw [hq r hm] at this
        cases this
      rw [List.find?_cons_of_neg (by simp [hne])]
      exact ih hqs hm

/-- R85: a word that a row of the map selects decodes by that row. -/
theorem decodeWord_of_selects {r : Row} (hm : r ∈ rows) {w : Word} (hs : r.selects w = true) :
    decodeWord w = some (r.build w) := by
  simp [decodeWord, find_of_selects rows_disjoint hm hs]

/-- What decodes was selected by a row of the map. -/
theorem selects_of_decodeWord {w : Word} {i : Instr} (h : decodeWord w = some i) :
    ∃ r ∈ rows, r.selects w = true ∧ r.build w = i := by
  simp only [decodeWord, Option.map_eq_some_iff] at h
  obtain ⟨r, hf, hb⟩ := h
  exact ⟨r, List.mem_of_find?_eq_some hf, by simpa using List.find?_some hf, hb⟩

/-! ### The formats, bit by bit -/

theorem wordA_bit (op : Nibble) (nnn : Addr12) (k : Nat) :
    (wordA op nnn).getLsbD k = if k < 12 then nnn.getLsbD k else op.getLsbD (k - 12) := by
  unfold wordA
  rw [BitVec.getLsbD_append]

theorem wordXK_bit (op : Nibble) (x : Reg) (nn : Byte) (k : Nat) :
    (wordXK op x nn).getLsbD k =
      if k < 8 then nn.getLsbD k else if k < 12 then x.getLsbD (k - 8) else op.getLsbD (k - 12) := by
  unfold wordXK
  rw [BitVec.getLsbD_append, BitVec.getLsbD_append]
  by_cases h : k < 8
  · simp [h]
  · by_cases h' : k < 12
    · simp [h, h', show k - 8 < 4 by omega]
    · simp [h, h', show ¬ k - 8 < 4 by omega, show k - 8 - 4 = k - 12 by omega]

theorem wordXYN_bit (op : Nibble) (x y : Reg) (n : Nibble) (k : Nat) :
    (wordXYN op x y n).getLsbD k =
      if k < 4 then n.getLsbD k else if k < 8 then y.getLsbD (k - 4)
      else if k < 12 then x.getLsbD (k - 8) else op.getLsbD (k - 12) := by
  unfold wordXYN
  rw [BitVec.getLsbD_append, BitVec.getLsbD_append, BitVec.getLsbD_append]
  by_cases h : k < 4
  · simp [h]
  · by_cases h' : k < 8
    · simp [h, h', show k - 4 < 4 by omega]
    · by_cases h'' : k < 12
      · simp [h, h', h'', show ¬ k - 4 < 4 by omega, show k - 4 - 4 = k - 8 by omega, show k - 8 < 4 by omega]
      · simp [h, h', h'', show ¬ k - 4 < 4 by omega, show k - 4 - 4 = k - 8 by omega, show ¬ k - 8 < 4 by omega,
          show k - 8 - 4 = k - 12 by omega]

end Sys2Proof
end

