-- ==== Sys2Proof/Laws/Operands.lean ====
section
/-! SUPPORT. The operand forms and the flags, as naturals. -/

namespace Sys2Proof.Machine

@[simp] theorem zextAddr_toNat (nnn : Addr12) : (zextAddr nnn).toNat = nnn.toNat := by
  have := nnn.isLt
  simp only [zextAddr, BitVec.toNat_setWidth]
  omega

@[simp] theorem zextByte_toNat (b : Byte) : (zextByte b).toNat = b.toNat := by
  have := b.isLt
  simp only [zextByte, BitVec.toNat_setWidth]
  omega

@[simp] theorem glyphAddress_toNat (b : Byte) : (glyphAddress b).toNat = 5 * b.toNat := by
  have := b.isLt
  simp only [glyphAddress, Config.glyphBytes, BitVec.toNat_ofNat]
  omega

@[simp] theorem bcdDigits_length (b : Byte) : (bcdDigits b).length = 3 := rfl

@[simp] theorem firstRegs_length (s : State) (x : Reg) : (firstRegs s x).length = x.toNat := by
  have := x.isLt
  simp only [firstRegs, regCount, List.length_take, Vector.length_toList]
  omega

/-- The bytes FX55 stores are the registers below X, in order. -/
theorem firstRegs_get (s : State) {x z : Reg} (h : z.toNat < x.toNat) : (firstRegs s x)[z.toNat]? = some (readV s z) := by
  have hz : z.toNat < 16 := z.isLt
  rw [firstRegs, regCount, List.getElem?_take_of_lt h]
  simp [readV, hz]

theorem keyState_cases (s : State) (x : Reg) :
    (∃ h : (readV s x).toNat < 16, keyState s x = some (s.key[(readV s x).toNat])) ∨
      (16 ≤ (readV s x).toNat ∧ keyState s x = none) := by
  unfold keyState
  by_cases h : (readV s x).toNat < 16
  · exact .inl ⟨h, dif_pos h⟩
  · exact .inr ⟨by omega, dif_neg h⟩

end Sys2Proof.Machine
end

