-- ==== Sys2Proof/Laws/PerInstr.lean ====
section
/-! SUPPORT. The family RowMatch: every instruction is well formed and its word carries the mask and match of its row of R86. -/

namespace Sys2Proof.Laws.RowMatch

/-- The mask of R86 depends on the format alone (R83). -/
def maskOf : Format → Word
  | .z => 0xFFFF
  | .a | .xk | .xyn => 0xF000
  | .xy => 0xF00F
  | .xs => 0xF0FF

/-- The match column of R86. -/
def matchOf : Instr → Word
  | .cls => 0x00E0
  | .ret => 0x00EE
  | .jp _ => 0x1000
  | .call _ => 0x2000
  | .seVxNn _ _ => 0x3000
  | .sneVxNn _ _ => 0x4000
  | .seVxVy _ _ => 0x5000
  | .ldVxNn _ _ => 0x6000
  | .addVxNn _ _ => 0x7000
  | .ldVxVy _ _ => 0x8000
  | .or _ _ => 0x8001
  | .and _ _ => 0x8002
  | .xor _ _ => 0x8003
  | .addVxVy _ _ => 0x8004
  | .sub _ _ => 0x8005
  | .shr _ _ => 0x8006
  | .subn _ _ => 0x8007
  | .shl _ _ => 0x800E
  | .sneVxVy _ _ => 0x9000
  | .ldINnn _ => 0xA000
  | .jpV0 _ => 0xB000
  | .rnd _ _ => 0xC000
  | .drw _ _ _ => 0xD000
  | .skp _ => 0xE09E
  | .sknp _ => 0xE0A1
  | .ldVxDt _ => 0xF007
  | .ldVxK _ => 0xF00A
  | .ldDtVx _ => 0xF015
  | .ldStVx _ => 0xF018
  | .addIVx _ => 0xF01E
  | .ldFVx _ => 0xF029
  | .ldBVx _ => 0xF033
  | .ldMemVx _ => 0xF055
  | .ldVxMem _ => 0xF065

/-- The instruction is well formed and its word is selected by its own row (R85). -/
def Statement (i : Instr) : Prop := i.wf = true ∧ encode i &&& maskOf i.format = matchOf i

/-- Format A under its mask. -/
theorem wordA_mask (op : Nibble) (nnn : Addr12) : wordA op nnn &&& 0xF000 = wordA op 0 := by
  refine BitVec.eq_of_getLsbD_eq fun k hk => ?_
  rw [BitVec.getLsbD_and, wordA_bit, wordA_bit]
  interval_cases k <;> simp

/-- Format XK under its mask. -/
theorem wordXK_mask (op : Nibble) (x : Reg) (nn : Byte) : wordXK op x nn &&& 0xF000 = wordXK op 0 0 := by
  refine BitVec.eq_of_getLsbD_eq fun k hk => ?_
  rw [BitVec.getLsbD_and, wordXK_bit, wordXK_bit]
  interval_cases k <;> simp

/-- Format XS under its mask. -/
theorem wordXS_mask (op : Nibble) (x : Reg) (nn : Byte) : wordXK op x nn &&& 0xF0FF = wordXK op 0 nn := by
  refine BitVec.eq_of_getLsbD_eq fun k hk => ?_
  rw [BitVec.getLsbD_and, wordXK_bit, wordXK_bit]
  interval_cases k <;> simp

/-- Format XY under its mask. -/
theorem wordXY_mask (op : Nibble) (x y : Reg) (n : Nibble) : wordXYN op x y n &&& 0xF00F = wordXYN op 0 0 n := by
  refine BitVec.eq_of_getLsbD_eq fun k hk => ?_
  rw [BitVec.getLsbD_and, wordXYN_bit, wordXYN_bit]
  interval_cases k <;> simp

/-- Format XYN under its mask. -/
theorem wordXYN_mask (op : Nibble) (x y : Reg) (n : Nibble) : wordXYN op x y n &&& 0xF000 = wordXYN op 0 0 0 := by
  refine BitVec.eq_of_getLsbD_eq fun k hk => ?_
  rw [BitVec.getLsbD_and, wordXYN_bit, wordXYN_bit]
  interval_cases k <;> simp

theorem cls : Statement .cls := ⟨instr_wf _, by decide⟩
theorem ret : Statement .ret := ⟨instr_wf _, by decide⟩
theorem jp (nnn : Addr12) : Statement (.jp nnn) := ⟨instr_wf _, (wordA_mask 0x1 nnn).trans rfl⟩
theorem call (nnn : Addr12) : Statement (.call nnn) := ⟨instr_wf _, (wordA_mask 0x2 nnn).trans rfl⟩
theorem seVxNn (x : Reg) (nn : Byte) : Statement (.seVxNn x nn) := ⟨instr_wf _, (wordXK_mask 0x3 x nn).trans rfl⟩
theorem sneVxNn (x : Reg) (nn : Byte) : Statement (.sneVxNn x nn) := ⟨instr_wf _, (wordXK_mask 0x4 x nn).trans rfl⟩
theorem seVxVy (x y : Reg) : Statement (.seVxVy x y) := ⟨instr_wf _, (wordXY_mask 0x5 x y 0x0).trans rfl⟩
theorem ldVxNn (x : Reg) (nn : Byte) : Statement (.ldVxNn x nn) := ⟨instr_wf _, (wordXK_mask 0x6 x nn).trans rfl⟩
theorem addVxNn (x : Reg) (nn : Byte) : Statement (.addVxNn x nn) := ⟨instr_wf _, (wordXK_mask 0x7 x nn).trans rfl⟩
theorem ldVxVy (x y : Reg) : Statement (.ldVxVy x y) := ⟨instr_wf _, (wordXY_mask 0x8 x y 0x0).trans rfl⟩
theorem or (x y : Reg) : Statement (.or x y) := ⟨instr_wf _, (wordXY_mask 0x8 x y 0x1).trans rfl⟩
theorem and (x y : Reg) : Statement (.and x y) := ⟨instr_wf _, (wordXY_mask 0x8 x y 0x2).trans rfl⟩
theorem xor (x y : Reg) : Statement (.xor x y) := ⟨instr_wf _, (wordXY_mask 0x8 x y 0x3).trans rfl⟩
theorem addVxVy (x y : Reg) : Statement (.addVxVy x y) := ⟨instr_wf _, (wordXY_mask 0x8 x y 0x4).trans rfl⟩
theorem sub (x y : Reg) : Statement (.sub x y) := ⟨instr_wf _, (wordXY_mask 0x8 x y 0x5).trans rfl⟩
theorem shr (x y : Reg) : Statement (.shr x y) := ⟨instr_wf _, (wordXY_mask 0x8 x y 0x6).trans rfl⟩
theorem subn (x y : Reg) : Statement (.subn x y) := ⟨instr_wf _, (wordXY_mask 0x8 x y 0x7).trans rfl⟩
theorem shl (x y : Reg) : Statement (.shl x y) := ⟨instr_wf _, (wordXY_mask 0x8 x y 0xE).trans rfl⟩
theorem sneVxVy (x y : Reg) : Statement (.sneVxVy x y) := ⟨instr_wf _, (wordXY_mask 0x9 x y 0x0).trans rfl⟩
theorem ldINnn (nnn : Addr12) : Statement (.ldINnn nnn) := ⟨instr_wf _, (wordA_mask 0xA nnn).trans rfl⟩
theorem jpV0 (nnn : Addr12) : Statement (.jpV0 nnn) := ⟨instr_wf _, (wordA_mask 0xB nnn).trans rfl⟩
theorem rnd (x : Reg) (nn : Byte) : Statement (.rnd x nn) := ⟨instr_wf _, (wordXK_mask 0xC x nn).trans rfl⟩
theorem drw (x y : Reg) (n : Nibble) : Statement (.drw x y n) := ⟨instr_wf _, (wordXYN_mask 0xD x y n).trans rfl⟩
theorem skp (x : Reg) : Statement (.skp x) := ⟨instr_wf _, (wordXS_mask 0xE x 0x9E).trans rfl⟩
theorem sknp (x : Reg) : Statement (.sknp x) := ⟨instr_wf _, (wordXS_mask 0xE x 0xA1).trans rfl⟩
theorem ldVxDt (x : Reg) : Statement (.ldVxDt x) := ⟨instr_wf _, (wordXS_mask 0xF x 0x07).trans rfl⟩
theorem ldVxK (x : Reg) : Statement (.ldVxK x) := ⟨instr_wf _, (wordXS_mask 0xF x 0x0A).trans rfl⟩
theorem ldDtVx (x : Reg) : Statement (.ldDtVx x) := ⟨instr_wf _, (wordXS_mask 0xF x 0x15).trans rfl⟩
theorem ldStVx (x : Reg) : Statement (.ldStVx x) := ⟨instr_wf _, (wordXS_mask 0xF x 0x18).trans rfl⟩
theorem addIVx (x : Reg) : Statement (.addIVx x) := ⟨instr_wf _, (wordXS_mask 0xF x 0x1E).trans rfl⟩
theorem ldFVx (x : Reg) : Statement (.ldFVx x) := ⟨instr_wf _, (wordXS_mask 0xF x 0x29).trans rfl⟩
theorem ldBVx (x : Reg) : Statement (.ldBVx x) := ⟨instr_wf _, (wordXS_mask 0xF x 0x33).trans rfl⟩
theorem ldMemVx (x : Reg) : Statement (.ldMemVx x) := ⟨instr_wf _, (wordXS_mask 0xF x 0x55).trans rfl⟩
theorem ldVxMem (x : Reg) : Statement (.ldVxMem x) := ⟨instr_wf _, (wordXS_mask 0xF x 0x65).trans rfl⟩

end Sys2Proof.Laws.RowMatch
end

