-- ==== Sys2Proof/Laws/Sprite.lean ====
section
/-! SUPPORT. The law of drawing a sprite (R181): which pixels it turns, and what its collision flag says. A sprite has fewer
than 32 rows and 8 columns, so no two of its bits land on one pixel. -/

namespace Sys2Proof.Machine

/-- A set bit of the sprite row `b`, drawn on display row `r` from column `x` on, lands on the pixel `(r', c')`. -/
def rowHits (x r : Nat) (cols : List Nat) (b : Byte) (r' c' : Nat) : Bool :=
  cols.any fun col => decide (r % 32 = r' ∧ (x + col) % 64 = c') && spriteBit b col

/-- A set bit of some row of the sprite lands on the pixel `(r', c')`. -/
def spriteHits (x r : Nat) : List Byte → Nat → Nat → Bool
  | [], _, _ => false
  | b :: bs, r', c' => rowHits x r [0, 1, 2, 3, 4, 5, 6, 7] b r' c' || spriteHits x (r + 1) bs r' c'

/-- No two of these columns wrap onto one. -/
abbrev Apart (x : Nat) (cols : List Nat) : Prop := cols.Pairwise (fun a b => (x + a) % 64 ≠ (x + b) % 64)

theorem eight_apart (x : Nat) : Apart x [0, 1, 2, 3, 4, 5, 6, 7] := by
  simp only [Apart, List.pairwise_cons, List.mem_cons, List.not_mem_nil, or_false, forall_eq_or_imp, forall_eq,
    false_implies, implies_true, List.Pairwise.nil, and_true]
  omega

theorem pixel_mod (d : Display) {r c r' c' : Nat} (hr : r % 32 = r' % 32) (hc : c % 64 = c' % 64) :
    pixel d r c = pixel d r' c' := by
  simp only [pixel, hr, hc]

/-! ### One row of the sprite -/

theorem pixel_drawCols (b : Byte) (x r : Nat) {cols : List Nat} (hp : Apart x cols) (acc : Display × Bool) {r' c' : Nat}
    (hr : r' < 32) (hc : c' < 64) :
    pixel (drawCols acc b x r cols).1 r' c' = (pixel acc.1 r' c' ^^ rowHits x r cols b r' c') := by
  induction cols generalizing acc with
  | nil => simp [drawCols, rowHits]
  | cons col cols ih =>
    obtain ⟨h1, h2⟩ := List.pairwise_cons.mp hp
    rw [drawCols, ih h2, pixel_plot, Nat.mod_eq_of_lt hr, Nat.mod_eq_of_lt hc]
    by_cases h : r' = r % 32 ∧ c' = (x + col) % 64
    · have hz : rowHits x r cols b r' c' = false := by
        simp only [rowHits, List.any_eq_false, Bool.and_eq_true, decide_eq_true_eq, not_and]
        exact fun a ha he => absurd (h.2.symm.trans he.2.symm) (h1 a ha)
      have hpx : pixel acc.1 r (x + col) = pixel acc.1 r' c' := pixel_mod _ (by omega) (by omega)
      have hh : rowHits x r (col :: cols) b r' c' = spriteBit b col := by
        rw [rowHits, List.any_cons, show (cols.any _) = false from hz]
        simp [h.1.symm, h.2.symm]
      rw [if_pos h, hz, hh, hpx, Bool.xor_false]
    · have hn : ¬ (r % 32 = r' ∧ (x + col) % 64 = c') := fun hh => h ⟨hh.1.symm, hh.2.symm⟩
      simp [h, rowHits, hn]

theorem drawCols_collision (b : Byte) (x r : Nat) {cols : List Nat} (hp : Apart x cols) (acc : Display × Bool) :
    (drawCols acc b x r cols).2 = (acc.2 || cols.any fun col => pixel acc.1 r (x + col) && spriteBit b col) := by
  induction cols generalizing acc with
  | nil => simp [drawCols]
  | cons col cols ih =>
    obtain ⟨h1, h2⟩ := List.pairwise_cons.mp hp
    have hc : ∀ a ∈ cols, pixel (plot acc r (x + col) (spriteBit b col)).1 r (x + a) = pixel acc.1 r (x + a) :=
      fun a ha => by rw [pixel_plot, if_neg (fun h => h1 a ha h.2.symm)]
    rw [drawCols, ih h2, List.any_cons, ← Bool.or_assoc]
    congr 1
    rw [Bool.eq_iff_iff, List.any_eq_true, List.any_eq_true]
    exact exists_congr fun a => and_congr_right fun ha => by rw [hc a ha]

/-! ### The whole sprite -/

theorem row_of_spriteHits {x r r' c' : Nat} {bs : List Byte} (h : spriteHits x r bs r' c' = true) :
    ∃ k, k < bs.length ∧ (r + k) % 32 = r' := by
  induction bs generalizing r with
  | nil => cases h
  | cons b bs ih =>
    rcases Bool.or_eq_true_iff.mp h with h | h
    · obtain ⟨col, -, hh⟩ := List.any_eq_true.mp h
      simp only [Bool.and_eq_true, decide_eq_true_eq] at hh
      exact ⟨0, by simp, hh.1.1⟩
    · obtain ⟨k, hk, e⟩ := ih h
      exact ⟨k + 1, by simpa using hk, by rw [← e]; congr 1; omega⟩

/-- The rows below do not touch the display row of this one. -/
theorem rowHits_excludes {x r r' c' : Nat} {b : Byte} {bs : List Byte} {cols : List Nat} (hl : bs.length + 1 < 32)
    (h : rowHits x r cols b r' c' = true) : spriteHits x (r + 1) bs r' c' = false := by
  by_contra hh
  obtain ⟨k, hk, e⟩ := row_of_spriteHits (by simpa using hh)
  obtain ⟨col, -, hc⟩ := List.any_eq_true.mp h
  simp only [Bool.and_eq_true, decide_eq_true_eq] at hc
  omega

theorem pixel_drawRows (x r : Nat) {bs : List Byte} (hl : bs.length < 32) (acc : Display × Bool) {r' c' : Nat}
    (hr : r' < 32) (hc : c' < 64) :
    pixel (drawRows acc x r bs).1 r' c' = (pixel acc.1 r' c' ^^ spriteHits x r bs r' c') := by
  induction bs generalizing r acc with
  | nil => simp [drawRows, spriteHits]
  | cons b bs ih =>
    simp only [List.length_cons] at hl
    rw [drawRows, ih _ (by omega), pixel_drawCols b x r (eight_apart x) acc hr hc, spriteHits, Bool.xor_assoc]
    congr 1
    cases h1 : rowHits x r [0, 1, 2, 3, 4, 5, 6, 7] b r' c' with
    | false => simp
    | true => simp [rowHits_excludes hl h1]

theorem drawRows_collision (x r : Nat) {bs : List Byte} (hl : bs.length < 32) (acc : Display × Bool) :
    (drawRows acc x r bs).2 = true ↔ acc.2 = true ∨
      ∃ r' c', r' < 32 ∧ c' < 64 ∧ pixel acc.1 r' c' = true ∧ spriteHits x r bs r' c' = true := by
  induction bs generalizing r acc with
  | nil => simp [drawRows, spriteHits]
  | cons b bs ih =>
    simp only [List.length_cons] at hl
    rw [drawRows, ih _ (by omega), drawCols_collision b x r (eight_apart x), Bool.or_eq_true_iff, or_assoc]
    refine or_congr Iff.rfl ⟨?_, ?_⟩
    · rintro (h | ⟨r', c', hr, hc, h1, h2⟩)
      · obtain ⟨col, hcol, hh⟩ := List.any_eq_true.mp h
        obtain ⟨ha, hb⟩ := Bool.and_eq_true_iff.mp hh
        refine ⟨r % 32, (x + col) % 64, Nat.mod_lt _ (by decide), Nat.mod_lt _ (by decide), ?_, ?_⟩
        · rw [← ha]
          exact pixel_mod _ (by omega) (by omega)
        · exact Bool.or_eq_true_iff.mpr (.inl (List.any_eq_true.mpr ⟨col, hcol, by simp [hb]⟩))
      · rw [pixel_drawCols b x r (eight_apart x) acc hr hc] at h1
        have hz : rowHits x r [0, 1, 2, 3, 4, 5, 6, 7] b r' c' = false := by
          by_contra hh
          rw [rowHits_excludes hl (by simpa using hh)] at h2
          cases h2
        exact ⟨r', c', hr, hc, by simpa [hz] using h1, by simp [spriteHits, h2]⟩
    · rintro ⟨r', c', hr, hc, h1, h2⟩
      by_cases hh : rowHits x r [0, 1, 2, 3, 4, 5, 6, 7] b r' c' = true
      · obtain ⟨col, hcol, hk⟩ := List.any_eq_true.mp hh
        simp only [Bool.and_eq_true, decide_eq_true_eq] at hk
        refine .inl (List.any_eq_true.mpr ⟨col, hcol, ?_⟩)
        rw [pixel_mod acc.1 (r' := r') (c' := c') (by omega) (by omega), h1, hk.2]
        rfl
      · refine .inr ⟨r', c', hr, hc, ?_, by simpa [spriteHits, hh] using h2⟩
        rw [pixel_drawCols b x r (eight_apart x) acc hr hc, h1]
        simpa using hh

/-- Every pixel after a sprite was drawn. -/
theorem pixel_drawSprite (d : Display) (x y : Nat) {bs : List Byte} (hl : bs.length < 32) {r c : Nat} (hr : r < 32)
    (hc : c < 64) : pixel (drawSprite d bs x y).1 r c = (pixel d r c ^^ spriteHits x y bs r c) :=
  pixel_drawRows x y hl (d, false) hr hc

/-- The collision flag: some pixel was set before and is hit. -/
theorem drawSprite_collision (d : Display) (x y : Nat) {bs : List Byte} (hl : bs.length < 32) :
    (drawSprite d bs x y).2 = true ↔ ∃ r c, r < 32 ∧ c < 64 ∧ pixel d r c = true ∧ spriteHits x y bs r c = true := by
  simpa [drawSprite] using drawRows_collision x y hl (d, false)

end Sys2Proof.Machine
end

