-- ==== Sys2Proof/Tests/Slice0.lean ====
section
/-! SUPPORT. Tests: the checks refuse what is ill formed, words written out from the encoding tables decode, one step of each
instruction gives what spec/95_test_vectors.md says (its vector's name stands in each comment), and the hypotheses of every
statement are met by a concrete state. Expected values are the spec's, never the model's. -/

namespace Sys2Proof.Tests

open Sys2Proof.Machine Sys2Proof.Safety

/-! ### Helpers -/

/-- The state of 95_test_vectors.md: reset, Running, the word at 0x200 = pc. -/
def placed (w : Nat) : State := State.reset.withFetchWord 16 w

/-- The same with some registers set. -/
def with1 (w : Nat) (x : Reg) (b : Byte) : State := setV (placed w) x b

/-- The same with two registers set. -/
def with2 (w : Nat) (x : Reg) (b : Byte) (y : Reg) (c : Byte) : State := setV (with1 w x b) y c

/-- The state with a byte of memory set. -/
def poke (s : State) (a : Nat) (b : Byte) : State := { s with mem := Memory.write s.font s.mem a b }

/-- The state after one tick. -/
def after (s : State) : State :=
  match step s with
  | .next t => t
  | .fault _ => s
  | .refused _ => s

/-! ### Well-formedness: each check refuses a term of its own -/

theorem test_wf_z : Operands.wf .z ⟨99, 99, 99, 999, 9999⟩ = true := by decide
theorem test_wf_a_good : Operands.wf .a ⟨0, 0, 0, 0, 4095⟩ = true := by decide
theorem test_wf_a_nnn : Operands.wf .a ⟨0, 0, 0, 0, 4096⟩ = false := by decide
theorem test_wf_xk_good : Operands.wf .xk ⟨15, 0, 0, 255, 0⟩ = true := by decide
theorem test_wf_xk_x : Operands.wf .xk ⟨16, 0, 0, 255, 0⟩ = false := by decide
theorem test_wf_xk_nn : Operands.wf .xk ⟨15, 0, 0, 256, 0⟩ = false := by decide
theorem test_wf_xy_good : Operands.wf .xy ⟨15, 15, 0, 0, 0⟩ = true := by decide
theorem test_wf_xy_x : Operands.wf .xy ⟨16, 15, 0, 0, 0⟩ = false := by decide
theorem test_wf_xy_y : Operands.wf .xy ⟨15, 16, 0, 0, 0⟩ = false := by decide
theorem test_wf_xyn_good : Operands.wf .xyn ⟨15, 15, 15, 0, 0⟩ = true := by decide
theorem test_wf_xyn_x : Operands.wf .xyn ⟨16, 15, 15, 0, 0⟩ = false := by decide
theorem test_wf_xyn_y : Operands.wf .xyn ⟨15, 16, 15, 0, 0⟩ = false := by decide
theorem test_wf_xyn_n : Operands.wf .xyn ⟨15, 15, 16, 0, 0⟩ = false := by decide
theorem test_wf_xs_good : Operands.wf .xs ⟨15, 0, 0, 0, 0⟩ = true := by decide
theorem test_wf_xs_x : Operands.wf .xs ⟨16, 0, 0, 0, 0⟩ = false := by decide

/-- S2: 3584 bytes fit. -/
theorem test_wf_program_good : programWf (List.replicate 3584 0) = true := by
  rw [programWf, List.length_replicate]
  decide

/-- S2: 3585 bytes do not. -/
theorem test_wf_program_large : programWf (List.replicate 3585 0) = false := by
  rw [programWf, List.length_replicate]
  decide

theorem test_wf_memory_good : Memory.wf Config.defaultFont [(0, 1), (4095, 2)] := by decide
theorem test_wf_memory_unsorted : ¬ Memory.wf Config.defaultFont [(600, 1), (512, 2)] := by decide
theorem test_wf_memory_twice : ¬ Memory.wf Config.defaultFont [(512, 1), (512, 2)] := by decide
theorem test_wf_memory_blank : ¬ Memory.wf Config.defaultFont [(512, 0)] := by decide
theorem test_wf_memory_font : ¬ Memory.wf Config.defaultFont [(0, 0xF0)] := by decide
theorem test_wf_memory_beyond : ¬ Memory.wf Config.defaultFont [(4096, 1)] := by decide

/-! ### Decoding: words written out bit by bit from R83 and R86 (OP, X, Y or NN or NNN) -/

theorem test_decode_cls : decodeWord 0b0000_0000_1110_0000 = some .cls := by decide
theorem test_decode_ret : decodeWord 0b0000_0000_1110_1110 = some .ret := by decide
theorem test_decode_jp : decodeWord 0b0001_1010_1011_1100 = some (.jp 0xABC) := by decide
theorem test_decode_call : decodeWord 0b0010_0011_0000_0000 = some (.call 0x300) := by decide
theorem test_decode_seVxNn : decodeWord 0b0011_0101_0100_0010 = some (.seVxNn 0x5 0x42) := by decide
theorem test_decode_sneVxNn : decodeWord 0b0100_1010_0000_0001 = some (.sneVxNn 0xA 0x01) := by decide
theorem test_decode_seVxVy : decodeWord 0b0101_1010_1011_0000 = some (.seVxVy 0xA 0xB) := by decide
theorem test_decode_ldVxNn : decodeWord 0b0110_1010_0000_0010 = some (.ldVxNn 0xA 0x02) := by decide
theorem test_decode_addVxNn : decodeWord 0b0111_0001_1000_0000 = some (.addVxNn 0x1 0x80) := by decide
theorem test_decode_ldVxVy : decodeWord 0b1000_1010_1011_0000 = some (.ldVxVy 0xA 0xB) := by decide
theorem test_decode_or : decodeWord 0b1000_1010_1011_0001 = some (.or 0xA 0xB) := by decide
theorem test_decode_and : decodeWord 0b1000_1010_1011_0010 = some (.and 0xA 0xB) := by decide
theorem test_decode_xor : decodeWord 0b1000_1010_1011_0011 = some (.xor 0xA 0xB) := by decide
theorem test_decode_addVxVy : decodeWord 0b1000_1010_1011_0100 = some (.addVxVy 0xA 0xB) := by decide
theorem test_decode_sub : decodeWord 0b1000_1010_1011_0101 = some (.sub 0xA 0xB) := by decide
theorem test_decode_shr : decodeWord 0b1000_1010_1011_0110 = some (.shr 0xA 0xB) := by decide
theorem test_decode_subn : decodeWord 0b1000_1010_1011_0111 = some (.subn 0xA 0xB) := by decide
theorem test_decode_shl : decodeWord 0b1000_1010_1011_1110 = some (.shl 0xA 0xB) := by decide
theorem test_decode_sneVxVy : decodeWord 0b1001_1010_1011_0000 = some (.sneVxVy 0xA 0xB) := by decide
theorem test_decode_ldINnn : decodeWord 0b1010_0010_0001_0000 = some (.ldINnn 0x210) := by decide
theorem test_decode_jpV0 : decodeWord 0b1011_1111_1111_1111 = some (.jpV0 0xFFF) := by decide
theorem test_decode_rnd : decodeWord 0b1100_0001_0000_1111 = some (.rnd 0x1 0x0F) := by decide
theorem test_decode_drw : decodeWord 0b1101_0001_0010_0011 = some (.drw 0x1 0x2 0x3) := by decide
theorem test_decode_skp : decodeWord 0b1110_0001_1001_1110 = some (.skp 0x1) := by decide
theorem test_decode_sknp : decodeWord 0b1110_1111_1010_0001 = some (.sknp 0xF) := by decide
theorem test_decode_ldVxDt : decodeWord 0b1111_0001_0000_0111 = some (.ldVxDt 0x1) := by decide
theorem test_decode_ldVxK : decodeWord 0b1111_0011_0000_1010 = some (.ldVxK 0x3) := by decide
theorem test_decode_ldDtVx : decodeWord 0b1111_0010_0001_0101 = some (.ldDtVx 0x2) := by decide
theorem test_decode_ldStVx : decodeWord 0b1111_0010_0001_1000 = some (.ldStVx 0x2) := by decide
theorem test_decode_addIVx : decodeWord 0b1111_0010_0001_1110 = some (.addIVx 0x2) := by decide
theorem test_decode_ldFVx : decodeWord 0b1111_0011_0010_1001 = some (.ldFVx 0x3) := by decide
theorem test_decode_ldBVx : decodeWord 0b1111_0100_0011_0011 = some (.ldBVx 0x4) := by decide
theorem test_decode_ldMemVx : decodeWord 0b1111_0001_0101_0101 = some (.ldMemVx 0x1) := by decide
theorem test_decode_ldVxMem : decodeWord 0b1111_1111_0110_0101 = some (.ldVxMem 0xF) := by decide

/-- Section 2.1: the words it calls unknown. -/
theorem test_decode_unknown :
    ([0x0000, 0x00E1, 0x01E0, 0x0FFF, 0x5AB1, 0x8AB8, 0x8ABD, 0x8ABF, 0x9AB1, 0xE19F, 0xEF00, 0xF075, 0xF085, 0xFFFF] :
      List Word).all (fun w => decodeWord w == none) = true := by decide

/-- S1: the fields of 0xD7A5. -/
theorem test_fields : (fieldOp 0xD7A5, fieldX 0xD7A5, fieldY 0xD7A5, fieldN 0xD7A5, fieldNN 0xD7A5, fieldNNN 0xD7A5) =
    (0xD, 0x7, 0xA, 0x5, 0xA5, 0x7A5) := by decide

/-- R55: the byte at the lower address is the high byte. -/
theorem test_bytes : bytesWord 0x6A 0x02 = 0x6A02 ∧ wordBytes 0x6A02 = [0x6A, 0x02] := by decide

theorem test_table_word : decodeTableWord 16 0x6A02 = some (.ldVxNn 0xA 0x02) ∧ decodeTableWord 16 0x0000 = none := by decide

/-- R91: assembler spellings. -/
theorem test_asm : Instr.asm (.ldVxMem 0xF) = "LD VF, [I]" ∧ Instr.asm (.ldVxNn 0xA 2) = "LD VA, 2" := by decide

/-! ### The step (section 2.2) -/

/-- T1: an odd pc is legal. -/
theorem test_step_odd : let t := after (poke (poke { placed 0 with pc := 0x201 } 0x201 0x6A) 0x202 0x02)
    readV t 0xA = 0x02 ∧ t.pc = 0x203 := by decide

/-- T2: the last word of memory runs, and the next fetch faults. -/
theorem test_step_last : let t := after (poke (poke { placed 0 with pc := 4094 } 4094 0x6A) 4095 0x02)
    readV t 0xA = 0x02 ∧ t.pc = 4096 ∧ (after t).fault = ⟨.decodeFault, 0x1000⟩ ∧ (after t).pc = 4096 := by decide

/-- T3. -/
theorem test_step_beyond : after { placed 0 with pc := 4095 } =
    { placed 0 with pc := 4095, run := .faulted, fault := ⟨.decodeFault, 0x0FFF⟩ } := by decide

/-- T4. -/
theorem test_step_timers : let t := after { placed 0x6000 with dt := 1, st := 1 }
    t.dt = 0 ∧ t.st = 0 ∧ t.beeps = 1 := by decide

/-- T5: an unknown word leaves the timers and emits no Beep. -/
theorem test_step_unknown : let t := after { placed 0x0000 with dt := 5, st := 5 }
    t.fault = ⟨.unknownOpcode, 0⟩ ∧ t.run = .faulted ∧ t.dt = 5 ∧ t.st = 5 ∧ t.beeps = 0 ∧ t.pc = 0x202 := by decide

/-- T6: a Beep answered fail. -/
theorem test_step_beep_fails : let t := after { placed 0x6000 with dt := 2, st := 2, beepFails := [0] }
    t.fault = ⟨.rendererFault, 1⟩ ∧ t.run = .faulted ∧ t.dt = 1 ∧ t.st = 2 ∧ t.pc = 0x202 := by decide

/-- T7, T8: no step outside Running, and no start from Faulted. -/
theorem test_step_idle : after State.reset = State.reset ∧
    after (hostStart { State.reset with run := .faulted }) = { State.reset with run := .faulted } := by decide

/-! ### Control flow (section 2.3) -/

/-- T10. -/
theorem test_jp : (after (placed 0x1ABC)).pc = 0x0ABC := by decide

/-- T13. -/
theorem test_call : let t := after { placed 0x2300 with sp := 15 }
    t.stack[15] = 0x0202 ∧ t.sp = 16 ∧ t.pc = 0x0300 := by decide

/-- T14. -/
theorem test_call_full : let t := after { placed 0x2300 with sp := 16 }
    t.fault = ⟨.stackOverflow, 0x2300⟩ ∧ t.sp = 16 ∧ t.pc = 0x0202 := by decide

/-- T15. -/
theorem test_ret : let t := after { placed 0x00EE with sp := 1, stack := State.reset.stack.set 0 0x0456 }
    t.sp = 0 ∧ t.pc = 0x0456 ∧ t.stack[0] = 0x0456 := by decide

/-- T16. -/
theorem test_ret_empty : (after (placed 0x00EE)).fault = ⟨.stackUnderflow, 0x00EE⟩ := by decide

/-- T17, T18. -/
theorem test_jpV0 : (after (with1 0xB300 0 0x04)).pc = 0x0304 ∧ (after (with1 0xBFFF 0 0xFF)).pc = 0x10FE := by decide

/-- T19, T20. -/
theorem test_seVxNn : (after (with1 0x3542 5 0x42)).pc = 0x204 ∧ (after (with1 0x3543 5 0x42)).pc = 0x202 := by decide

/-- T21, T22. -/
theorem test_sneVxNn : (after (with1 0x4542 5 0x42)).pc = 0x202 ∧ (after (with1 0x4543 5 0x42)).pc = 0x204 := by decide

/-- T23, T24. -/
theorem test_seVxVy : (after (with2 0x5120 1 7 2 7)).pc = 0x204 ∧ (after (with2 0x5120 1 7 2 8)).pc = 0x202 := by decide

/-- T26, T27. -/
theorem test_sneVxVy : (after (with2 0x9120 1 7 2 8)).pc = 0x204 ∧ (after (with2 0x9120 1 7 2 7)).pc = 0x202 := by decide

/-! ### Arithmetic and logic (section 2.4) -/

/-- T40. -/
theorem test_ldVxNn : readV (after (placed 0x6FFF)) 0xF = 0xFF := by decide

/-- T41: no carry is written. -/
theorem test_addVxNn : let t := after (with2 0x7101 1 0xFF 0xF 0x55)
    readV t 1 = 0 ∧ readV t 0xF = 0x55 := by decide

/-- T43. -/
theorem test_ldVxVy : readV (after (with1 0x8120 2 0x5A)) 1 = 0x5A := by decide

/-- T44 (VF as in the vectors' header). -/
theorem test_or : let t := after (setV (with2 0x8121 1 0xF0 2 0x0F) 0xF 0x55)
    readV t 1 = 0xFF ∧ readV t 0xF = 0x55 := by decide

/-- T45. -/
theorem test_and : let t := after (setV (with2 0x8122 1 0xF0 2 0x3C) 0xF 0x55)
    readV t 1 = 0x30 ∧ readV t 0xF = 0x55 := by decide

/-- T46. -/
theorem test_xor : let t := after (setV (with2 0x8123 1 0xF0 2 0x3C) 0xF 0x55)
    readV t 1 = 0xCC ∧ readV t 0xF = 0x55 := by decide

/-- S9. -/
theorem test_addVxVy : let t := after (with2 0x8124 1 250 2 10)
    readV t 1 = 4 ∧ readV t 0xF = 1 := by decide

/-- T52, T54: VF as the destination, VF as a source. -/
theorem test_addVxVy_vf : readV (after (with2 0x8F14 0xF 0xF0 1 0x20)) 0xF = 1 ∧
    readV (after (with2 0x81F4 1 1 0xF 1)) 1 = 2 ∧ readV (after (with2 0x81F4 1 1 0xF 1)) 0xF = 0 := by decide

/-- S10. -/
theorem test_sub : let t := after (with2 0x8125 1 5 2 10)
    readV t 1 = 251 ∧ readV t 0xF = 0 := by decide

/-- T55, T58: equal operands do not borrow; the flag wins over the result. -/
theorem test_sub_edge : readV (after (with2 0x8125 1 7 2 7)) 0xF = 1 ∧ readV (after (with2 0x8F15 0xF 3 1 5)) 0xF = 0 := by
  decide

/-- T60. -/
theorem test_subn : let t := after (with2 0x8127 1 5 2 10)
    readV t 1 = 5 ∧ readV t 2 = 10 ∧ readV t 0xF = 1 := by decide

/-- T61. -/
theorem test_subn_borrow : let t := after (with2 0x8127 1 10 2 5)
    readV t 1 = 251 ∧ readV t 0xF = 0 := by decide

/-- T63. -/
theorem test_shr : let t := after (with2 0x8126 1 0xEE 2 0x05)
    readV t 1 = 2 ∧ readV t 2 = 2 ∧ readV t 0xF = 1 := by decide

/-- T67, T68. -/
theorem test_shr_vf : readV (after (with1 0x8F26 2 0x05)) 0xF = 2 ∧ readV (after (with1 0x81F6 0xF 0x03)) 1 = 0 := by decide

/-- T70. -/
theorem test_shl : let t := after (with1 0x812E 2 0x81)
    readV t 1 = 2 ∧ readV t 2 = 2 ∧ readV t 0xF = 1 := by decide

/-- T73, T74. -/
theorem test_shl_vf : readV (after (with1 0x8F2E 2 0x81)) 0xF = 2 ∧ readV (after (with1 0x81FE 0xF 0x80)) 1 = 2 := by decide

/-- T77: the byte drawn is free, so only the mask decides here. -/
theorem test_rnd : readV (after (placed 0xC100)) 1 = 0 := by
  show Config.randByte 0 &&& 0 = 0
  exact BitVec.and_zero

/-! ### Address register and memory (section 2.5) -/

/-- T80. -/
theorem test_ldINnn : (after { placed 0xAFFF with i := 0xFFFF }).i = 0x0FFF := by decide

/-- T82, T83. -/
theorem test_addIVx : (after { with1 0xF21E 2 1 with i := 0xFFFF }).i = 0 ∧
    (after { with1 0xF21E 2 1 with i := 0x0FFF }).i = 0x1000 := by decide

/-- T85, T87. -/
theorem test_ldFVx : (after (with1 0xF329 3 0x0F)).i = 75 ∧ (after (with1 0xF329 3 0xFF)).i = 1275 := by decide

/-- T92: up to the last byte of memory. -/
theorem test_ldBVx : let t := after { with1 0xF033 0 123 with i := 4093 }
    Memory.readMany t.font t.mem 4093 3 = [1, 2, 3] ∧ t.i = 4093 := by decide

/-- T93. -/
theorem test_ldBVx_beyond : let t := after { with1 0xF033 0 123 with i := 4094 }
    t.fault = ⟨.dataAccessFault, 0x1000⟩ ∧ t.mem = (placed 0xF033).mem ∧ t.pc = 0x202 := by decide

/-- T95: register V3 is not stored. -/
theorem test_ldMemVx : let t := after { setV (setV (with2 0xF355 0 1 1 2) 2 3) 3 4 with i := 0x400 }
    Memory.readMany t.font t.mem 0x400 4 = [1, 2, 3, 0] ∧ t.i = 0x403 := by decide

/-- T97, T100. -/
theorem test_ldMemVx_edge : (after { placed 0xF055 with i := 0xFFFF }).i = 0xFFFF ∧
    (after { placed 0xF355 with i := 4094 }).fault = ⟨.dataAccessFault, 0x1000⟩ := by decide

/-- T101: register V3 is not loaded. -/
theorem test_ldVxMem : let s := poke (poke (poke (poke (placed 0xF365) 0x400 0xAA) 0x401 0xBB) 0x402 0xCC) 0x403 0xDD
    let t := after { s with i := 0x400 }
    (readV t 0, readV t 1, readV t 2, readV t 3) = (0xAA, 0xBB, 0xCC, 0) ∧ t.i = 0x403 := by decide

/-- T103, T104. -/
theorem test_ldVxMem_edge : (after { placed 0xF265 with i := 4095 }).fault = ⟨.dataAccessFault, 0x1000⟩ ∧
    readV (after { poke (placed 0xF165) 4095 0x5A with i := 4095 }) 0 = 0x5A := by decide

/-! ### Display (section 2.6) -/

/-- T110. -/
theorem test_cls : let t := after { placed 0x00E0 with disp := setPixel clearedDisplay 3 3 true }
    pixel t.disp 3 3 = false ∧ t.renders = 1 := by decide

/-- T113: collision. -/
theorem test_drw : let s := poke (placed 0xD121) 0x300 0xF0
    let t := after { s with i := 0x300, disp := setPixel clearedDisplay 0 0 true }
    (List.range 6).map (pixel t.disp 0) = [false, true, true, true, false, false] ∧ readV t 0xF = 1 := by decide

/-- T111, S8: both coordinates wrap, and so does a sprite row. -/
theorem test_drw_wrap :
    (let s := poke (with2 0xD121 1 67 2 33) 0x300 0xFF
     (List.range 13).map (pixel (after { s with i := 0x300 }).disp 1) =
       [false, false, false, true, true, true, true, true, true, true, true, false, false]) ∧
    (let s := poke (with1 0xD121 1 63) 0x300 0xC0
     let t := after { s with i := 0x300 }
     pixel t.disp 0 63 = true ∧ pixel t.disp 0 0 = true ∧ pixel t.disp 0 1 = false) := by decide

/-! ### Keys and timers (section 2.7) -/

/-- T130, T131. -/
theorem test_skp : (after { with1 0xE19E 1 5 with key := State.reset.key.set 5 true }).pc = 0x204 ∧
    (after (with1 0xE19E 1 5)).pc = 0x202 := by decide

/-- T135. -/
theorem test_skp_beyond : (after (with1 0xE19E 1 16)).fault = ⟨.keyIndexFault, 0x0010⟩ := by decide

/-- T132, T133. -/
theorem test_sknp : (after (with1 0xE1A1 1 5)).pc = 0x204 ∧
    (after { with1 0xE1A1 1 5 with key := State.reset.key.set 5 true }).pc = 0x202 := by decide

/-- T136. -/
theorem test_sknp_beyond : (after (with1 0xE1A1 1 255)).fault = ⟨.keyIndexFault, 0x00FF⟩ := by decide

/-- T137. -/
theorem test_ldVxDt : let t := after { placed 0xF107 with dt := 2 }
    readV t 1 = 2 ∧ t.dt = 1 := by decide

/-- T145. -/
theorem test_ldVxK : let t := after { with1 0xF30A 3 7 with key := State.reset.key.set 2 true }
    t.fault = ⟨.unknownOpcode, 0xF30A⟩ ∧ readV t 3 = 7 ∧ t.pc = 0x202 := by decide

/-- T141, T142. -/
theorem test_ldDtVx : (after { placed 0xF015 with dt := 9 }).dt = 0 ∧ (after (with1 0xF015 0 255)).dt = 254 := by decide

/-- T143, T144. -/
theorem test_ldStVx : (after (with1 0xF018 0 3)).st = 2 ∧ (after (with1 0xF018 0 3)).beeps = 1 ∧
    (after { placed 0xF018 with st := 9 }).st = 0 ∧ (after { placed 0xF018 with st := 9 }).beeps = 0 := by decide

/-! ### Host commands -/

/-- T146, S12. -/
theorem test_press_release :
    (hostPress State.reset 3).key[3] = true ∧ hostPress State.reset 16 = State.reset ∧ hostPress State.reset 20 = State.reset ∧
    (hostRelease (hostPress State.reset 3) 3).key[3] = false ∧ hostRelease State.reset (-1) = State.reset := by decide

/-- S13: what was loaded is gone after reset, and the font table is back. -/
theorem test_reset : let s := hostReset (poke (poke (placed 0x6A02) 0 0x11) 4095 0x22)
    readByte s 512 = some 0 ∧ readByte s 4095 = some 0 ∧ readByte s 0 = some 0xF0 ∧ s.run = .idle ∧ s.pc = 512 := by decide

/-- R65: the bytes stand at 512 and on. -/
theorem test_load : (match hostLoad State.reset [0x60, 0x12] with
    | .next (a, t) => a == .success && readByte t 512 == some 0x60 && readByte t 513 == some 0x12
    | .fault _ => false
    | .refused _ => false) = true := by decide

/-- R220: a pending stop is honoured by the next tick, before a step. -/
theorem test_stop : after (hostStop (placed 0x6A02)) = { placed 0x6A02 with run := .idle } := by decide

/-! ### Every statement's hypotheses are met, clause by clause, at the edges of their ranges -/

/-- A word that decodes (EncodeInvertsDecode). -/
theorem test_witness_decodes : decodeWord 0xFF65 = some (.ldVxMem 0xF) := by decide

/-- TickBoundaryObeysLifecycle: Idle, Faulted, and Running with a stop pending. -/
theorem test_witness_tick_boundary : State.reset.run ≠ .running ∧ (after { placed 0 with pc := 4095 }).run ≠ .running ∧
    (hostStop (placed 0)).run = .running ∧ (hostStop (placed 0)).stopReq = true := by decide

/-- FetchIsBigEndian: both bytes inside memory, the second at the last address. -/
theorem test_witness_fetch : let s := poke (poke { placed 0 with pc := 4094 } 4094 0x6A) 4095 0x02
    readByte s s.pc.toNat = some 0x6A ∧ readByte s (s.pc.toNat + 1) = some 0x02 := by decide

/-- StepRunsDecodedInstruction, DelayTimerCountsDownToZero: a fetched instruction, at 512 and at the last word of memory. -/
theorem test_witness_fetches : Fetches (placed 0x6A02) (.ldVxNn 0xA 0x02) :=
  ⟨by decide, by decide, 0x6A, 0x02, by decide, by decide, rfl⟩

theorem test_witness_fetches_last :
    Fetches (poke (poke { placed 0 with pc := 4094 } 4094 0xC1) 4095 0x0F) (.rnd 0x1 0x0F) :=
  ⟨by decide, by decide, 0xC1, 0x0F, by decide, by decide, rfl⟩

/-- StepRunsDecodedInstruction, DelayTimerCountsDownToZero, SoundTimerBeepsWhileNonzero: the execution answers a state that is
not Faulted, with DT at its largest and ST at 0. -/
theorem test_witness_runs : Fetches { placed 0x6A02 with dt := 255 } (.ldVxNn 0xA 0x02) ∧
    ∃ t, exec (.ldVxNn 0xA 0x02) { placed 0x6A02 with dt := 255, pc := (placed 0x6A02).pc + 2 } = .next t ∧
      t.run ≠ .faulted ∧ t.dt = 255 ∧ t.st = 0 :=
  ⟨⟨by decide, by decide, 0x6A, 0x02, by decide, by decide, rfl⟩, _, rfl, by decide, rfl, rfl⟩

/-- FetchAndDecodeFaults and FirstFailureEndsTheStep: a fetch at 4095 and at the top of pc, and a word that is no
instruction at the last word of memory. -/
theorem test_witness_fetch_faults :
    (let s : State := { placed 0 with pc := 4095 }
     s.run = .running ∧ s.stopReq = false ∧ 4095 ≤ s.pc.toNat) ∧
    (let s : State := { placed 0 with pc := 0xFFFF }
     s.run = .running ∧ s.stopReq = false ∧ 4095 ≤ s.pc.toNat) ∧
    (let s : State := { placed 0 with pc := 4094 }
     s.run = .running ∧ s.stopReq = false ∧ fetchWord s = some 0x0000 ∧ decodeWord 0x0000 = none) := by decide

/-- FirstFailureEndsTheStep: an execution that faults. -/
theorem test_witness_execution_faults : Fetches (placed 0xF30A) (.ldVxK 0x3) ∧
    ∃ t, exec (.ldVxK 0x3) { placed 0xF30A with pc := (placed 0xF30A).pc + 2 } = .next t ∧ t.run = .faulted :=
  ⟨⟨by decide, by decide, 0xF3, 0x0A, by decide, by decide, rfl⟩, _, rfl, rfl⟩

/-- FirstFailureEndsTheStep, SoundTimerBeepsWhileNonzero: ST at 1 and at 255, the Beep answered ok and answered fail. -/
theorem test_witness_beep_fails : Fetches { placed 0x6A02 with st := 255, beepFails := [0] } (.ldVxNn 0xA 0x02) ∧
    ∃ t, exec (.ldVxNn 0xA 0x02) { placed 0x6A02 with st := 255, beepFails := [0], pc := (placed 0x6A02).pc + 2 } = .next t ∧
      t.run ≠ .faulted ∧ t.st ≠ 0 ∧ beepOk t t.beeps = false :=
  ⟨⟨by decide, by decide, 0x6A, 0x02, by decide, by decide, rfl⟩, _, rfl, by decide, by decide, by decide⟩

theorem test_witness_beep_ok : Fetches { placed 0x6A02 with st := 1 } (.ldVxNn 0xA 0x02) ∧
    ∃ t, exec (.ldVxNn 0xA 0x02) { placed 0x6A02 with st := 1, pc := (placed 0x6A02).pc + 2 } = .next t ∧
      t.run ≠ .faulted ∧ t.st ≠ 0 ∧ beepOk t t.beeps = true :=
  ⟨⟨by decide, by decide, 0x6A, 0x02, by decide, by decide, rfl⟩, _, rfl, by decide, by decide, by decide⟩

/-- SoundTimerEmitsExactlyItsValueInBeeps: with every answer ok, for the least and the largest ST. -/
theorem test_witness_sound_timer (b : Byte) :
    let s : State := { State.reset with st := b }
    s.st.toNat = b.toNat ∧ ∀ n, s.beeps ≤ n → n < s.beeps + b.toNat → beepOk s n = true :=
  ⟨rfl, fun _ _ _ => rfl⟩

/-- RetPopsIntoPc: one entry, a full stack, none. -/
theorem test_witness_ret :
    (let s : State := { State.reset with sp := 1 }
     s.sp.val = 0 + 1 ∧ s.stack[0]? = some 0) ∧
    (let s : State := { State.reset with sp := 16 }
     s.sp.val = 15 + 1 ∧ s.stack[15]? = some 0) ∧ State.reset.sp.val = 0 := by decide

/-- CallPushesAdvancedPc: empty, one slot left, full. -/
theorem test_witness_call : State.reset.sp.val = 0 ∧ 0 < 16 ∧ ({ State.reset with sp := 15 } : State).sp.val = 15 ∧ 15 < 16 ∧
    ({ State.reset with sp := 16 } : State).sp.val = 16 := by decide

/-- SkipsOnRegister: the least and the largest last digit that is not 0. -/
theorem test_witness_skip_digit : (1 : Nibble) ≠ 0 ∧ (0xF : Nibble) ≠ 0 := by decide

/-- AddVxVyCarries, SubAndSubnBorrow, ShiftsMoveVyIntoBoth: operands that are not VF, and operands that are. -/
theorem test_witness_not_vf : (0x0 : Reg) ≠ vf ∧ (0xE : Reg) ≠ vf ∧ (0xF : Reg) = vf := by decide

/-- RndMasksADrawnByte: a bit that is 0 in NN, the highest and one beyond the byte. -/
theorem test_witness_rnd : (0x7F : Byte).getLsbD 7 = false ∧ (0xFF : Byte).getLsbD 8 = false := by decide

/-- LdBStoresDecimalDigits: the last place that fits, and the first that does not. -/
theorem test_witness_bcd : baseAddress { State.reset with i := 4093 } + 2 < 4096 ∧
    4096 ≤ baseAddress { State.reset with i := 4094 } + 2 := by decide

/-- LdMemStoresFirstRegisters, LdVxMemLoadsFirstRegisters: X = 0 at any I, a transfer that ends at the last byte, one that ends
after it, and registers below and not below X. -/
theorem test_witness_transfer : (0x0 : Reg).toNat = 0 ∧ baseAddress { State.reset with i := 4081 } + (0xF : Reg).toNat ≤ 4096 ∧
    (0xF : Reg).toNat ≠ 0 ∧ 4096 < baseAddress { State.reset with i := 4082 } + (0xF : Reg).toNat ∧
    (0xE : Reg).toNat < (0xF : Reg).toNat ∧ (0xF : Reg).toNat ≤ (0xF : Reg).toNat := by decide

/-- StoreIsSeenByTheNextFetch: the word at the end of memory is stored over. -/
theorem test_witness_store_seen : let s : State := { placed 0 with i := 4094, pc := 4094 }
    (1 : Reg).toNat = (0 : Reg).toNat + 1 ∧ (1 : Reg).toNat < (2 : Reg).toNat ∧ baseAddress s + (2 : Reg).toNat ≤ 4096 ∧
    s.pc.toNat = baseAddress s + (0 : Reg).toNat := by decide

/-- ClsClearsAndNotifies, DrwXorsTheSprite, DrwFaults: a Render answered ok and one answered fail. -/
theorem test_witness_render : renderOk State.reset State.reset.renders = true ∧
    (let s : State := { State.reset with renderFails := [0] }
     renderOk s s.renders = false) := by decide

/-- DrwXorsTheSprite, DrwFaults: no byte at any I, a sprite that ends at the last byte, one that ends after it. -/
theorem test_witness_drw : (0 : Nibble).toNat = 0 ∧
    (let s : State := { State.reset with i := 4081 }
     baseAddress s + (0xF : Nibble).toNat ≤ 4096 ∧ renderOk s s.renders = true) ∧
    (let s : State := { State.reset with i := 4081, renderFails := [0] }
     baseAddress s + (0xF : Nibble).toNat ≤ 4096 ∧ renderOk s s.renders = false) ∧
    (0xF : Nibble).toNat ≠ 0 ∧ 4096 < baseAddress { State.reset with i := 4082 } + (0xF : Nibble).toNat := by decide

/-- DrawingTwiceRestoresTheDisplay. -/
theorem test_witness_drawing_twice : (0x1 : Reg) ≠ vf ∧ (0x2 : Reg) ≠ vf ∧
    ∃ t u, exec (.drw 0x1 0x2 0x5) State.reset = .next t ∧ exec (.drw 0x1 0x2 0x5) t = .next u :=
  ⟨by decide, by decide, _, _, rfl, rfl⟩

/-- KeySkipsReadOneKey: the first key, the last key pressed, and the first value that names none. -/
theorem test_witness_keys : State.reset.key[(readV State.reset 1).toNat]? = some false ∧
    (let s : State := { setV State.reset 1 15 with key := State.reset.key.set 15 true }
     s.key[(readV s 1).toNat]? = some true) ∧
    16 ≤ (readV (setV State.reset 1 16) 1).toNat := by decide

/-- LdStVxSetsSoundTimer: zero, and not zero with the Beep answered ok. -/
theorem test_witness_sound : readV State.reset 1 = 0 ∧
    (let s : State := setV State.reset 1 255
     readV s 1 ≠ 0 ∧ beepOk s s.beeps = true) := by decide

/-- PartsAreWrittenOnlyByTheirInstructions, RegistersAreWrittenOnlyAsNamed, InstructionsRaiseOnlyTheirOwnFaults: an
execution, a part and a register that its instruction does not name. -/
theorem test_witness_exec : (∃ t, exec (.addVxVy 0x1 0x2) State.reset = .next t) ∧ Part.i ∉ mayChange (.addVxVy 0x1 0x2) ∧
    ¬ mayWriteReg (.addVxVy 0x1 0x2) 0x2 := by
  refine ⟨⟨_, rfl⟩, by decide, ?_⟩
  show ¬ ((0x2 : Reg) = 0x1 ∨ (0x2 : Reg) = vf)
  decide

/-- An execution that faults, as InstructionsRaiseOnlyTheirOwnFaults has it. -/
theorem test_witness_exec_faults : ∃ t, exec .ret State.reset = .next t ∧ t.run = .faulted ∧ t.fault.cause ∈ mayRaise .ret :=
  ⟨_, rfl, rfl, by decide⟩

/-- The invariants hold of a Running state that has a program, so the statements about a step from one say something. -/
theorem test_witness_inv : Inv (placed 0x6A02) := by
  refine ⟨?_, ⟨by decide, ?_⟩, ?_⟩
  · show Memory.wf _ _
    decide
  · intro k h
    have : (placed 0x6A02).stack = Vector.replicate 16 0 := rfl
    simp [this]
  · unfold LifecycleInv
    decide

/-- ... and of one whose pc is the largest that the bound admits. -/
theorem test_witness_pc_bound : PcInv { placed 0 with pc := 4350 } := by
  refine ⟨by decide, fun k h => ?_⟩
  have : (placed 0).stack = Vector.replicate 16 0 := rfl
  show ((placed 0).stack[k]).toNat ≤ 4096
  simp [this]

/-- MemoryStaysCanonical, PcStaysBounded, LifecycleStaysConsistent, StepsNeverChangeKeys: the invariants and a step. -/
theorem test_witness_step : Inv (placed 0x6A02) ∧ ∃ t, step (placed 0x6A02) = .next t ∧ readV t 0xA = 0x02 :=
  ⟨test_witness_inv, _, rfl, by decide⟩

theorem test_witness_step_pc_bound : PcInv { placed 0 with pc := 4350 } ∧
    ∃ t, step { placed 0 with pc := 4350 } = .next t ∧ t.pc = 4350 :=
  ⟨test_witness_pc_bound, _, rfl, rfl⟩

/-- HostEventsKeepTheInvariants: the invariants hold of an Idle state with a byte in memory ... -/
theorem test_witness_events_inv : Inv (poke State.reset 600 0x12) := by
  refine ⟨?_, ⟨by decide, ?_⟩, ?_⟩
  · show Memory.wf _ _
    decide
  · intro k h
    have : State.reset.stack = Vector.replicate 16 0 := rfl
    show (State.reset.stack[k]).toNat ≤ 4096
    simp [this]
  · unfold LifecycleInv
    decide

/-- ... and every event answers a next state from there. -/
theorem test_witness_events : Inv (poke State.reset 600 0x12) ∧
    ([.start, .stop, .reset, .press 15, .release (-1), .load [0x12, 0x00]] : List HostEvent).all
      (fun e => match hostEvent e (poke State.reset 600 0x12) with | .next _ => true | .fault _ => false | .refused _ => false) = true :=
  ⟨test_witness_events_inv, by decide⟩

/-- ReachableStatesMeetTheInvariants: the state in which a loaded program has run its first instruction. -/
theorem test_witness_reachable : ∃ t, Reachable t ∧ readV t 0 = 0x12 := by
  have h0 : Reachable State.reset := .initial _ rfl
  have h1 := Reachable.input _ _ (.host (.load [0x60, 0x12])) h0 rfl
  have h2 := Reachable.input _ _ (.host .start) h1 rfl
  have h3 := Reachable.input _ _ .tick h2 rfl
  exact ⟨_, h3, by decide⟩

/-- LoadCopiesAProgramThatFits: the largest program and its last byte, the first too large, and a core that is not Idle. -/
theorem test_witness_load : State.reset.run = .idle ∧ (List.replicate 3584 (0x12 : Byte)).length ≤ 3584 ∧
    (List.replicate 3584 (0x12 : Byte))[3583]? = some 0x12 ∧ 3584 < (List.replicate 3585 (0x12 : Byte)).length ∧
    (placed 0).run ≠ .idle := by
  rw [List.length_replicate, List.length_replicate, List.getElem?_replicate]
  exact ⟨rfl, by decide, rfl, by decide, by decide⟩

/-- PressAndReleaseSetOneKey: the first and the last key, and the indices just outside. -/
theorem test_witness_press : 0 < 16 ∧ (0 : Int) = (0 : Nat) ∧ 15 < 16 ∧ (15 : Int) = (15 : Nat) ∧ (-1 : Int) < 0 ∧ (16 : Int) ≤ 16 := by
  decide

/-- StartAndStopMoveTheLifecycle: one state of each kind. -/
theorem test_witness_lifecycle : State.reset.run = .idle ∧ (placed 0).run = .running ∧
    (after { placed 0 with pc := 4095 }).run = .faulted := by decide

end Sys2Proof.Tests
end

/-! SUPPORT and PROOFS. The state: what each operation and each instruction writes, what a step can do, and the statements
of 10_state.md that follow. -/

namespace Sys2Proof.Proofs

open Sys2Proof.Machine Sys2Proof.Safety

/-! ### Frames of the state's operations

`OnlyChanges` compares memory byte by byte; `Writes` also keeps the list of cells, which the canonical form speaks of. -/

/-- From `s` to `t` no part outside `ps` was written. -/
structure Writes (ps : List Part) (s t : State) : Prop where
  onlyChanges : OnlyChanges ps s t
  mem : Part.mem ∉ ps → t.mem = s.mem

theorem Part.same_trans {p : Part} {s t u : State} (hst : p.same s t) (htu : p.same t u) : p.same s u := by
  cases p <;> simp_all [Part.same]

theorem Writes.refl (ps : List Part) (s : State) : Writes ps s s :=
  ⟨fun p _ => by cases p <;> simp [Part.same], fun _ => rfl⟩

theorem Writes.mono {ps qs : List Part} {s t : State} (h : Writes ps s t) (hpq : ps ⊆ qs) : Writes qs s t :=
  ⟨fun p hp => h.onlyChanges p fun hm => hp (hpq hm), fun hp => h.mem fun hm => hp (hpq hm)⟩

theorem Writes.trans {ps : List Part} {s t u : State} (hst : Writes ps s t) (htu : Writes ps t u) : Writes ps s u :=
  ⟨fun p hp => Part.same_trans (hst.onlyChanges p hp) (htu.onlyChanges p hp),
    fun hp => (htu.mem hp).trans (hst.mem hp)⟩

/-- Two operations in a row write the parts of both. -/
theorem Writes.comp {ps qs : List Part} {s t u : State} (hst : Writes ps s t) (htu : Writes qs t u) :
    Writes (ps ++ qs) s u :=
  (hst.mono (List.subset_append_left ps qs)).trans (htu.mono (List.subset_append_right ps qs))

theorem setV_writes (s : State) (x : Reg) (b : Byte) : Writes [.v] s (setV s x b) :=
  ⟨fun p hp => by cases p <;> simp_all [Part.same, readByte], fun _ => rfl⟩

theorem setI_writes (s : State) (w : Word) : Writes [.i] s (setI s w) :=
  ⟨fun p hp => by cases p <;> simp_all [Part.same, readV, readByte], fun _ => rfl⟩

theorem setPc_writes (s : State) (w : Word) : Writes [.pc] s (setPc s w) :=
  ⟨fun p hp => by cases p <;> simp_all [Part.same, readV, readByte], fun _ => rfl⟩

theorem advancePc_writes (s : State) : Writes [.pc] s (advancePc s) := setPc_writes s (s.pc + 2)

theorem skipIf_writes (s : State) (c : Bool) : Writes [.pc] s (skipIf s c) := by
  rw [skipIf_eq]
  exact setPc_writes s _

theorem setDt_writes (s : State) (b : Byte) : Writes [.dt] s (setDt s b) :=
  ⟨fun p hp => by cases p <;> simp_all [Part.same, readV, readByte], fun _ => rfl⟩

theorem setSt_writes (s : State) (b : Byte) : Writes [.st] s (setSt s b) :=
  ⟨fun p hp => by cases p <;> simp_all [Part.same, readV, readByte], fun _ => rfl⟩

theorem raiseFault_writes (s : State) (c : Cause) (info : Word) : Writes faultParts s (raiseFault s c info) :=
  ⟨fun p hp => by cases p <;> simp_all [Part.same, readV, readByte], fun _ => rfl⟩

theorem setRegs_writes (s : State) (k : Nat) (bs : List Byte) : Writes [.v] s (setRegs s k bs) :=
  ⟨fun p hp => by cases p <;> simp_all [Part.same, readByte], fun _ => setRegs_mem s k bs⟩

theorem drawRandom_writes (s : State) : Writes [.draws] s (drawRandom s).2 :=
  ⟨fun p hp => by cases p <;> simp_all [Part.same, drawRandom, readV, readByte], fun _ => rfl⟩

theorem disp_writes (s : State) (d : Display) : Writes [.disp] s { s with disp := d } :=
  ⟨fun p hp => by cases p <;> simp_all [Part.same, readV, readByte], fun _ => rfl⟩

theorem renders_writes (s : State) (n : Nat) : Writes [.renders] s { s with renders := n } :=
  ⟨fun p hp => by cases p <;> simp_all [Part.same, readV, readByte], fun _ => rfl⟩

theorem mem_writes (s : State) (m : List Host.Cell) : Writes [.mem] s { s with mem := m } :=
  ⟨fun p hp => by cases p <;> simp_all [Part.same, readV], fun hp => absurd (List.mem_singleton_self _) hp⟩

theorem stack_sp_writes (s : State) (stack : Vector Word 16) (sp : Fin 17) :
    Writes [.sp, .stack] s { s with stack := stack, sp := sp } :=
  ⟨fun p hp => by cases p <;> simp_all [Part.same, readV, readByte], fun _ => rfl⟩

theorem sp_writes (s : State) (sp : Fin 17) : Writes [.sp] s { s with sp := sp } :=
  ⟨fun p hp => by cases p <;> simp_all [Part.same, readV, readByte], fun _ => rfl⟩

theorem timerPhase_writes (s : State) : Writes ([.dt, .st, .beeps] ++ faultParts) s (timerPhase s) := by
  rw [timerPhase_eq]
  exact ⟨fun p hp => by cases p <;> simp_all [Part.same, readV, readByte], fun _ => rfl⟩

/-! ### The instructions whose effect has cases -/

theorem exec_ret_cases (s : State) :
    (∃ h : 0 < s.sp.val, exec .ret s =
        .next (setPc { s with sp := ⟨s.sp.val - 1, by omega⟩ } (s.stack[s.sp.val - 1]'(by omega)))) ∨
      (s.sp.val = 0 ∧ exec .ret s = .next (raiseFault s .stackUnderflow (encode .ret))) := by
  rcases pop_cases s with ⟨h, e⟩ | ⟨h, e⟩
  · exact .inl ⟨h, by simp only [exec, execRet, e]⟩
  · exact .inr ⟨h, by simp only [exec, execRet, e]⟩

theorem exec_call_cases (nnn : Addr12) (s : State) :
    (∃ h : s.sp.val < 16, exec (.call nnn) s =
        .next (setPc { s with stack := s.stack.set s.sp.val s.pc h, sp := ⟨s.sp.val + 1, by omega⟩ } (zextAddr nnn))) ∨
      (s.sp.val = 16 ∧ exec (.call nnn) s = .next (raiseFault s .stackOverflow (encode (.call nnn)))) := by
  rcases push_cases s s.pc with ⟨h, e⟩ | ⟨h, e⟩
  · exact .inl ⟨h, by simp only [exec, execCall, e]⟩
  · exact .inr ⟨h, by simp only [exec, execCall, e]⟩

theorem exec_skp_cases (x : Reg) (s : State) :
    (∃ h : (readV s x).toNat < 16, exec (.skp x) s = .next (skipIf s s.key[(readV s x).toNat])) ∨
      (16 ≤ (readV s x).toNat ∧ exec (.skp x) s = .next (raiseKeyIndex s x)) := by
  rcases keyState_cases s x with ⟨h, e⟩ | ⟨h, e⟩
  · exact .inl ⟨h, by simp only [exec, execSkp, e]⟩
  · exact .inr ⟨h, by simp only [exec, execSkp, e]⟩

theorem exec_sknp_cases (x : Reg) (s : State) :
    (∃ h : (readV s x).toNat < 16, exec (.sknp x) s = .next (skipIf s (!s.key[(readV s x).toNat]))) ∨
      (16 ≤ (readV s x).toNat ∧ exec (.sknp x) s = .next (raiseKeyIndex s x)) := by
  rcases keyState_cases s x with ⟨h, e⟩ | ⟨h, e⟩
  · exact .inl ⟨h, by simp only [exec, execSknp, e]⟩
  · exact .inr ⟨h, by simp only [exec, execSknp, e]⟩

theorem exec_drw_cases (x y : Reg) (n : Nibble) (s : State) :
    ((n.toNat = 0 ∨ baseAddress s + n.toNat ≤ Config.memSize) ∧
        exec (.drw x y n) s =
          .next (emitRender (drawn s x y (Memory.readMany s.font s.mem (baseAddress s) n.toNat)))) ∨
      (n.toNat ≠ 0 ∧ Config.memSize < baseAddress s + n.toNat ∧ exec (.drw x y n) s = .next (raiseDataAccess s)) := by
  rcases loadBytes_cases s (baseAddress s) n.toNat with ⟨h, e⟩ | ⟨h0, h, e⟩
  · exact .inl ⟨h, by simp only [exec, execDrw, e]⟩
  · exact .inr ⟨h0, h, by simp only [exec, execDrw, e]⟩

theorem exec_ldBVx_cases (x : Reg) (s : State) :
    (baseAddress s + 3 ≤ Config.memSize ∧
        exec (.ldBVx x) s = .next
          { s with mem := Memory.writeMany s.font s.mem (baseAddress s) (bcdDigits (readV s x)) }) ∨
      (Config.memSize < baseAddress s + 3 ∧ exec (.ldBVx x) s = .next (raiseDataAccess s)) := by
  rcases storeBytes_cases s (baseAddress s) (bcdDigits (readV s x)) with ⟨h, e⟩ | ⟨-, h, e⟩
  · exact .inl ⟨by simpa using h, by simp only [exec, execLdBVx, e]⟩
  · exact .inr ⟨h, by simp only [exec, execLdBVx, e]⟩

theorem exec_ldMemVx_cases (x : Reg) (s : State) :
    ((x.toNat = 0 ∨ baseAddress s + x.toNat ≤ Config.memSize) ∧
        exec (.ldMemVx x) s = .next (advanceI
          { s with mem := Memory.writeMany s.font s.mem (baseAddress s) (firstRegs s x) } x)) ∨
      (x.toNat ≠ 0 ∧ Config.memSize < baseAddress s + x.toNat ∧ exec (.ldMemVx x) s = .next (raiseDataAccess s)) := by
  rcases storeBytes_cases s (baseAddress s) (firstRegs s x) with ⟨h, e⟩ | ⟨h0, h, e⟩
  · exact .inl ⟨by rwa [firstRegs_length] at h, by simp only [exec, execLdMemVx, e]⟩
  · rw [firstRegs_length] at h0 h
    exact .inr ⟨h0, h, by simp only [exec, execLdMemVx, e]⟩

theorem exec_ldVxMem_cases (x : Reg) (s : State) :
    ((x.toNat = 0 ∨ baseAddress s + x.toNat ≤ Config.memSize) ∧
        exec (.ldVxMem x) s = .next (advanceI
          (setRegs s 0 (Memory.readMany s.font s.mem (baseAddress s) x.toNat)) x)) ∨
      (x.toNat ≠ 0 ∧ Config.memSize < baseAddress s + x.toNat ∧ exec (.ldVxMem x) s = .next (raiseDataAccess s)) := by
  rcases loadBytes_cases s (baseAddress s) x.toNat with ⟨h, e⟩ | ⟨h0, h, e⟩
  · exact .inl ⟨h, by simp only [exec, execLdVxMem, regCount, e]⟩
  · exact .inr ⟨h0, h, by simp only [exec, execLdVxMem, regCount, e]⟩

/-! ### What an execution can do -/

/-- The parts that the instruction's own rule has it write, before any fault is entered. -/
def ownParts (i : Instr) : List Part := (mayChange i).filter (· ∉ faultParts)

theorem ownParts_subset (i : Instr) : ownParts i ⊆ mayChange i := List.filter_subset_self _

theorem not_mem_ownParts {p : Part} (h : p ∈ faultParts) (i : Instr) : p ∉ ownParts i := by
  simp only [ownParts, List.mem_filter, decide_eq_true_eq, not_and, not_not]
  exact fun _ => h

/-- An execution writes parts of its own and stops there, or then enters a fault that its instruction may raise. -/
inductive Effect (i : Instr) (s : State) : State → Prop
  | done (t : State) (hw : Writes (ownParts i) s t) : Effect i s t
  | raised (u : State) (c : Cause) (info : Word) (hw : Writes (ownParts i) s u) (hc : c ∈ mayRaise i) :
    Effect i s (raiseFault u c info)

/-- A Render ends the execution, by its count or by its fault (R184). -/
theorem Effect.of_emitRender {i : Instr} {s u : State} (hw : Writes (ownParts i) s u) (hr : [Part.renders] ⊆ ownParts i)
    (hc : Cause.rendererFault ∈ mayRaise i) : Effect i s (emitRender u) := by
  have hw' := hw.trans ((renders_writes u (u.renders + 1)).mono hr)
  rcases emitRender_cases u with ⟨-, e⟩ | ⟨-, e⟩
  · exact e ▸ .done _ hw'
  · exact e ▸ .raised _ _ _ hw' hc

theorem Effect.of_raise {i : Instr} (s : State) {c : Cause} (info : Word) (hc : c ∈ mayRaise i) :
    Effect i s (raiseFault s c info) :=
  .raised s c info (.refl _ _) hc

/-! ### The shared forms of the register instructions -/

theorem setResultThenFlag_writes (s : State) (x : Reg) (b : Byte) (f : Bool) :
    Writes [.v] s (setResultThenFlag s x b f) :=
  (setV_writes s x b).trans (setV_writes _ vf _)

theorem shiftInPlace_writes (s : State) (x y : Reg) (f : Bool) (shift : Byte → Byte) :
    Writes [.v] s (shiftInPlace s x y f shift) :=
  ((setV_writes s vf _).trans (setV_writes _ y _)).trans (setV_writes _ x _)

theorem drawn_writes (s : State) (x y : Reg) (bs : List Byte) : Writes [.v, .disp] s (drawn s x y bs) :=
  ((disp_writes s _).comp (setV_writes _ vf _)).mono (by simp)

theorem advanceI_writes (s : State) (x : Reg) : Writes [.i] s (advanceI s x) := setI_writes s _

/-- Every instruction answers a next state, and has its effect (R20 to R30, R50, R184, R201). -/
theorem exec_effect (i : Instr) (s : State) : ∃ t, exec i s = .next t ∧ Effect i s t := by
  cases i with
  | cls => exact ⟨_, rfl, .of_emitRender ((disp_writes s _).mono (by decide)) (by decide) (by decide)⟩
  | ret =>
    rcases exec_ret_cases s with ⟨_, e⟩ | ⟨-, e⟩
    · exact ⟨_, e, .done _ (((sp_writes s _).comp (setPc_writes _ _)).mono (by decide))⟩
    · exact ⟨_, e, .of_raise s _ (by decide)⟩
  | call nnn =>
    rcases exec_call_cases nnn s with ⟨_, e⟩ | ⟨-, e⟩
    · exact ⟨_, e, .done _ (((stack_sp_writes s _ _).comp (setPc_writes _ _)).mono (by simp [ownParts, mayChange]))⟩
    · exact ⟨_, e, .of_raise s _ (by simp [mayRaise])⟩
  | jp _ | jpV0 _ => exact ⟨_, rfl, .done _ (setPc_writes s _)⟩
  | seVxNn _ _ | sneVxNn _ _ | seVxVy _ _ | sneVxVy _ _ => exact ⟨_, rfl, .done _ (skipIf_writes s _)⟩
  | ldVxNn _ _ | addVxNn _ _ | ldVxVy _ _ | or _ _ | and _ _ | xor _ _ | ldVxDt _ =>
    exact ⟨_, rfl, .done _ (setV_writes s _ _)⟩
  | addVxVy _ _ | sub _ _ | subn _ _ => exact ⟨_, rfl, .done _ (setResultThenFlag_writes s _ _ _)⟩
  | shr _ _ | shl _ _ => exact ⟨_, rfl, .done _ (shiftInPlace_writes s _ _ _ _)⟩
  | ldINnn _ | addIVx _ | ldFVx _ => exact ⟨_, rfl, .done _ (setI_writes s _)⟩
  | rnd x nn =>
    exact ⟨_, rfl, .done _ (((drawRandom_writes s).comp (setV_writes _ x _)).mono (by simp [ownParts, mayChange]))⟩
  | drw x y n =>
    rcases exec_drw_cases x y n s with ⟨-, e⟩ | ⟨-, -, e⟩
    · exact ⟨_, e, .of_emitRender ((drawn_writes s x y _).mono (by simp [ownParts, mayChange]))
        (by simp [ownParts, mayChange]) (by simp [mayRaise])⟩
    · exact ⟨_, e, .of_raise s _ (by simp [mayRaise])⟩
  | skp x =>
    rcases exec_skp_cases x s with ⟨_, e⟩ | ⟨-, e⟩
    · exact ⟨_, e, .done _ (skipIf_writes s _)⟩
    · exact ⟨_, e, .of_raise s _ (by simp [mayRaise])⟩
  | sknp x =>
    rcases exec_sknp_cases x s with ⟨_, e⟩ | ⟨-, e⟩
    · exact ⟨_, e, .done _ (skipIf_writes s _)⟩
    · exact ⟨_, e, .of_raise s _ (by simp [mayRaise])⟩
  | ldVxK x => exact ⟨_, rfl, .of_raise s _ (by simp [mayRaise])⟩
  | ldDtVx x => exact ⟨_, rfl, .done _ (setDt_writes s _)⟩
  | ldStVx x => exact ⟨_, rfl, .done _ (setSt_writes s _)⟩
  | ldBVx x =>
    rcases exec_ldBVx_cases x s with ⟨-, e⟩ | ⟨-, e⟩
    · exact ⟨_, e, .done _ (mem_writes s _)⟩
    · exact ⟨_, e, .of_raise s _ (by simp [mayRaise])⟩
  | ldMemVx x =>
    rcases exec_ldMemVx_cases x s with ⟨-, e⟩ | ⟨-, -, e⟩
    · exact ⟨_, e, .done _ ((mem_writes s _).comp (advanceI_writes _ x))⟩
    · exact ⟨_, e, .of_raise s _ (by simp [mayRaise])⟩
  | ldVxMem x =>
    rcases exec_ldVxMem_cases x s with ⟨-, e⟩ | ⟨-, -, e⟩
    · exact ⟨_, e, .done _ ((setRegs_writes s _ _).comp (advanceI_writes _ x))⟩
    · exact ⟨_, e, .of_raise s _ (by simp [mayRaise])⟩

theorem effect_of_exec {i : Instr} {s t : State} (h : exec i s = .next t) : Effect i s t := by
  obtain ⟨u, hu, he⟩ := exec_effect i s
  cases h.symm.trans hu
  exact he

theorem faultParts_subset_of_mayRaise {i : Instr} {c : Cause} (hc : c ∈ mayRaise i) : faultParts ⊆ mayChange i := by
  cases i <;> simp_all [mayRaise, mayChange]

theorem Effect.writes {i : Instr} {s t : State} (h : Effect i s t) : Writes (mayChange i) s t := by
  cases h with
  | done _ hw => exact hw.mono (ownParts_subset i)
  | raised u c info hw hc =>
    exact (hw.mono (ownParts_subset i)).trans ((raiseFault_writes u c info).mono (faultParts_subset_of_mayRaise hc))

/-- What an execution never writes: the parts its instruction does not list. -/
theorem exec_writes {i : Instr} {s t : State} (h : exec i s = .next t) : Writes (mayChange i) s t :=
  (effect_of_exec h).writes

/-- Settles O45: every instruction's effect writes its own parts, and those of a fault only where it may raise one. -/
theorem partsAreWrittenOnlyByTheirInstructions : Obligations.PartsAreWrittenOnlyByTheirInstructions :=
  fun _ _ _ h => (exec_writes h).onlyChanges

/-! ### Registers -/

theorem readV_setResultThenFlag_other (s : State) {x z : Reg} (b : Byte) (f : Bool) (hx : z ≠ x) (hvf : z ≠ vf) :
    readV (setResultThenFlag s x b f) z = readV s z := by
  rw [setResultThenFlag, readV_setV_other _ _ hvf, readV_setV_other _ _ hx]

theorem readV_shiftInPlace_other (s : State) {x y z : Reg} (f : Bool) (shift : Byte → Byte) (hx : z ≠ x) (hy : z ≠ y)
    (hvf : z ≠ vf) : readV (shiftInPlace s x y f shift) z = readV s z := by
  rw [shiftInPlace, readV_setV_other _ _ hx, readV_setV_other _ _ hy, readV_setV_other _ _ hvf]

theorem readV_emitRender (s : State) (z : Reg) : readV (emitRender s) z = readV s z := readV_congr (emitRender_v s) z

theorem readV_drawn_other (s : State) (x y : Reg) (bs : List Byte) {z : Reg} (hvf : z ≠ vf) :
    readV (drawn s x y bs) z = readV s z :=
  readV_setV_other _ _ hvf

/-- Loading `n` bytes into the first registers leaves the others. -/
theorem readV_setRegs_beyond (s : State) {bs : List Byte} {z : Reg} (hl : bs.length ≤ 16) (hz : bs.length ≤ z.toNat) :
    readV (setRegs s 0 bs) z = readV s z := by
  rw [readV_setRegs s 0 bs (by omega), if_pos (Nat.zero_le _), Nat.sub_zero, List.getElem?_eq_none hz, Option.getD_none]

/-- Settles O46: an instruction that may write registers at all writes those it names; the others are O45's. -/
theorem registersAreWrittenOnlyAsNamed : Obligations.RegistersAreWrittenOnlyAsNamed := by
  intro i s t z h hz
  by_cases hv : Part.v ∉ mayChange i
  · exact (exec_writes h).onlyChanges .v hv z
  · cases i with
    | ldVxNn _ _ | addVxNn _ _ | ldVxVy _ _ | or _ _ | and _ _ | xor _ _ | rnd _ _ | ldVxDt _ =>
      cases h
      exact readV_setV_other _ _ hz
    | addVxVy _ _ | sub _ _ | subn _ _ =>
      obtain ⟨hx, hvf⟩ := not_or.mp hz
      cases h
      exact readV_setResultThenFlag_other s _ _ hx hvf
    | shr _ _ | shl _ _ =>
      obtain ⟨hx, hy, hvf⟩ := by simpa only [mayWriteReg, not_or] using hz
      cases h
      exact readV_shiftInPlace_other s _ _ hx hy hvf
    | drw x y n =>
      rcases exec_drw_cases x y n s with ⟨-, e⟩ | ⟨-, -, e⟩
      · cases h.symm.trans e
        rw [readV_emitRender, readV_drawn_other _ _ _ _ hz]
      · cases h.symm.trans e
        rfl
    | ldVxMem x =>
      rcases exec_ldVxMem_cases x s with ⟨-, e⟩ | ⟨-, -, e⟩
      · cases h.symm.trans e
        have := x.isLt
        exact readV_setRegs_beyond s (by rw [Memory.readMany_length]; omega)
          (by rw [Memory.readMany_length]; exact Nat.le_of_not_lt hz)
      · cases h.symm.trans e
        rfl
    | _ => exact absurd (by simp [mayChange]) hv

/-! ### What a step can do -/

/-- A tick begins a step: Running, with no stop pending (R100, R220). -/
def Steps (s : State) : Prop := s.run = .running ∧ s.stopReq = false

/-- The state that a tick from `s` leaves, by what ends it (R101 to R106, R218, R220). -/
inductive StepTo (s : State) : State → Prop
  | ignored (hr : s.run ≠ .running) : StepTo s s
  | stopped (hr : s.run = .running) (hq : s.stopReq = true) : StepTo s { s with run := .idle, stopReq := false }
  | fetchFault (hs : Steps s) (hw : fetchWord s = none) : StepTo s (raiseFault s .decodeFault s.pc)
  | decodeFault (w : Word) (hs : Steps s) (hw : fetchWord s = some w) (hd : decodeWord w = none) :
    StepTo s (raiseFault (advancePc s) .unknownOpcode w)
  | execFault (w : Word) (i : Instr) (t : State) (hs : Steps s) (hw : fetchWord s = some w)
    (hd : decodeWord w = some i) (he : exec i (advancePc s) = .next t) (hf : t.run = .faulted) : StepTo s t
  | completed (w : Word) (i : Instr) (u : State) (hs : Steps s) (hw : fetchWord s = some w)
    (hd : decodeWord w = some i) (he : exec i (advancePc s) = .next u) (hf : u.run ≠ .faulted) : StepTo s (timerPhase u)

theorem stepTo_of_step {s t : State} (h : step s = .next t) : StepTo s t := by
  rcases tick_cases exec s with
    ⟨hr, e⟩ | ⟨hr, hq, e⟩ | ⟨hr, hq, hw, e⟩ | ⟨hr, hq, w, hw, hd, e⟩ | ⟨hr, hq, w, i, hw, hd, e⟩
  · cases h.symm.trans e
    exact .ignored hr
  · cases h.symm.trans e
    exact .stopped hr hq
  · cases h.symm.trans e
    exact .fetchFault ⟨hr, hq⟩ hw
  · cases h.symm.trans e
    exact .decodeFault w ⟨hr, hq⟩ hw hd
  · obtain ⟨u, he, -⟩ := exec_effect i (advancePc s)
    rw [he] at e
    cases h.symm.trans e
    split
    next hf => exact .execFault w i u ⟨hr, hq⟩ hw hd he hf
    next hf => exact .completed w i u ⟨hr, hq⟩ hw hd he hf

/-! ### The bounds on pc and the stack (R25) -/

theorem pcInv_congr {s t : State} (hpc : t.pc = s.pc) (hstack : t.stack = s.stack) (h : PcInv s) : PcInv t := by
  unfold PcInv at *
  rwa [hpc, hstack]

/-- An execution that may not write pc keeps the bounds: only a call writes the stack, and it writes pc too. -/
theorem exec_pcInv_of_not_pc {i : Instr} {s t : State} (hp : Part.pc ∉ mayChange i) (h : exec i s = .next t)
    (hs : PcInv s) : PcInv t := by
  have hst : Part.stack ∉ mayChange i := by cases i <;> simp_all [mayChange]
  exact pcInv_congr ((exec_writes h).onlyChanges .pc hp) ((exec_writes h).onlyChanges .stack hst) hs

theorem setPc_pcInv {s : State} (hs : PcInv s) {w : Word} (hw : w.toNat ≤ 4350) : PcInv (setPc s w) := ⟨hw, hs.2⟩

/-- R109: a skip from a pc that a fetch has left adds at most 2 to 4096. -/
theorem skipIf_pcInv {s : State} (hs : PcInv s) (hpc : s.pc.toNat ≤ 4096) (c : Bool) : PcInv (skipIf s c) := by
  rw [skipIf_eq]
  refine setPc_pcInv hs ?_
  split
  · have h2 : (2 : Word).toNat = 2 := rfl
    rw [BitVec.toNat_add]
    omega
  · exact hs.1

/-- R27: what a push writes is a pc that a fetch has left, at most 4096. -/
theorem pushed_pcInv {s : State} (hs : PcInv s) {w : Word} (hw : w.toNat ≤ 4096) (h : s.sp.val < 16) (sp : Fin 17) :
    PcInv { s with stack := s.stack.set s.sp.val w h, sp := sp } := by
  refine ⟨hs.1, fun k hk => ?_⟩
  show ((s.stack.set s.sp.val w h)[k]).toNat ≤ 4096
  rw [Vector.getElem_set]
  split
  · exact hw
  · exact hs.2 k hk

/-- From a pc that a fetch has left, every instruction keeps the bounds: a jump goes to at most 4095, a return to a
pushed address, BNNN to at most 4095 + 255, and a skip to at most 4098. -/
theorem exec_pcInv {i : Instr} {s t : State} (hs : PcInv s) (hpc : s.pc.toNat ≤ 4096) (h : exec i s = .next t) :
    PcInv t := by
  by_cases hp : Part.pc ∉ mayChange i
  · exact exec_pcInv_of_not_pc hp h hs
  · cases i with
    | ret =>
      rcases exec_ret_cases s with ⟨h0, e⟩ | ⟨-, e⟩
      · cases h.symm.trans e
        have hslot := hs.2 (s.sp.val - 1) (by omega)
        exact setPc_pcInv (s := { s with sp := _ }) hs (by omega)
      · cases h.symm.trans e
        exact hs
    | jp nnn =>
      cases h
      have := nnn.isLt
      exact setPc_pcInv hs (by rw [zextAddr_toNat]; omega)
    | call nnn =>
      rcases exec_call_cases nnn s with ⟨h16, e⟩ | ⟨-, e⟩
      · cases h.symm.trans e
        have := nnn.isLt
        exact setPc_pcInv (pushed_pcInv hs hpc h16 _) (by rw [zextAddr_toNat]; omega)
      · cases h.symm.trans e
        exact hs
    | jpV0 nnn =>
      cases h
      have := nnn.isLt
      have := (readV s 0).isLt
      exact setPc_pcInv hs (by rw [BitVec.toNat_add, zextAddr_toNat, zextByte_toNat]; omega)
    | seVxNn _ _ | sneVxNn _ _ | seVxVy _ _ | sneVxVy _ _ =>
      cases h
      exact skipIf_pcInv hs hpc _
    | skp x =>
      rcases exec_skp_cases x s with ⟨_, e⟩ | ⟨-, e⟩
      · cases h.symm.trans e
        exact skipIf_pcInv hs hpc _
      · cases h.symm.trans e
        exact hs
    | sknp x =>
      rcases exec_sknp_cases x s with ⟨_, e⟩ | ⟨-, e⟩
      · cases h.symm.trans e
        exact skipIf_pcInv hs hpc _
      · cases h.symm.trans e
        exact hs
    | _ => exact absurd (by simp [mayChange]) hp

theorem timerPhase_pcInv {s : State} (hs : PcInv s) : PcInv (timerPhase s) :=
  pcInv_congr ((timerPhase_writes s).onlyChanges .pc (by decide)) ((timerPhase_writes s).onlyChanges .stack (by decide)) hs

/-- A fetch reads two bytes inside memory (R53), so it leaves pc at most 4096. -/
theorem advancePc_pc_le {s : State} {w : Word} (hw : fetchWord s = some w) : (advancePc s).pc.toNat ≤ 4096 := by
  rcases fetchWord_cases s with ⟨hp, -⟩ | ⟨-, e⟩
  · have hp' : s.pc.toNat + 1 < 4096 := hp
    have h2 : (2 : Word).toNat = 2 := rfl
    rw [advancePc_pc, BitVec.toNat_add]
    omega
  · cases hw.symm.trans e

theorem advancePc_pcInv {s : State} {w : Word} (hs : PcInv s) (hw : fetchWord s = some w) : PcInv (advancePc s) :=
  setPc_pcInv hs (le_trans (advancePc_pc_le hw) (by decide))

theorem step_pcInv {s t : State} (hs : PcInv s) (h : step s = .next t) : PcInv t := by
  have hexec {w : Word} {i : Instr} {u : State} (hw : fetchWord s = some w) (he : exec i (advancePc s) = .next u) :
      PcInv u :=
    exec_pcInv (advancePc_pcInv hs hw) (advancePc_pc_le hw) he
  cases stepTo_of_step h with
  | ignored => exact hs
  | stopped => exact hs
  | fetchFault => exact hs
  | decodeFault _ _ hw => exact advancePc_pcInv hs hw
  | execFault _ _ _ _ hw _ he => exact hexec hw he
  | completed _ _ _ _ hw _ he => exact timerPhase_pcInv (hexec hw he)

/-- Settles O50: a step executes only from a pc that a fetch inside memory has left, at most 4096, and then no instruction
passes the bounds. -/
theorem pcStaysBounded : Obligations.PcStaysBounded := fun _ _ => step_pcInv

/-! ### Keys, FONT and the host's answers -/

/-- The parts that no instruction, no fault and no timer writes (R30, R38). -/
def hostParts : List Part := [.key, .font, .renderFails, .beepFails]

theorem not_mem_mayChange_of_hostParts {p : Part} (hp : p ∈ hostParts) (i : Instr) : p ∉ mayChange i := by
  have : ∀ p ∈ hostParts, p ∉ mayChange i := by cases i <;> simp [hostParts, mayChange]
  exact this p hp

theorem not_mem_cycleParts_of_hostParts {p : Part} (hp : p ∈ hostParts) :
    p ∉ [Part.pc, .dt, .st, .beeps] ++ faultParts := by
  revert p
  decide

theorem stop_writes (s : State) : Writes faultParts s { s with run := .idle, stopReq := false } :=
  ⟨fun p hp => by cases p <;> simp_all [Part.same, readV, readByte], fun _ => rfl⟩

/-- Around the instruction it runs, a step writes pc, the timers, the count of Beeps and the fault parts alone. -/
theorem StepTo.same_of_hostParts {p : Part} (hp : p ∈ hostParts) {s t : State} (h : StepTo s t) : p.same s t := by
  have hc := not_mem_cycleParts_of_hostParts hp
  have hadv : p.same s (advancePc s) := ((advancePc_writes s).mono (by simp)).onlyChanges p hc
  have hexec {i : Instr} {u : State} (he : exec i (advancePc s) = .next u) : p.same s u :=
    Part.same_trans hadv ((exec_writes he).onlyChanges p (not_mem_mayChange_of_hostParts hp i))
  cases h with
  | ignored => exact (Writes.refl [] s).onlyChanges p (by simp)
  | stopped => exact ((stop_writes s).mono (by simp)).onlyChanges p hc
  | fetchFault => exact ((raiseFault_writes s _ _).mono (by simp)).onlyChanges p hc
  | decodeFault w =>
    exact Part.same_trans hadv (((raiseFault_writes _ _ w).mono (by simp)).onlyChanges p hc)
  | execFault _ _ _ _ _ _ he => exact hexec he
  | completed _ _ u _ _ _ he =>
    exact Part.same_trans (hexec he) (((timerPhase_writes u).mono (by simp)).onlyChanges p hc)

/-- Settles O48: keys, FONT and the answers are parts that nothing in a step writes. -/
theorem stepsNeverChangeKeys : Obligations.StepsNeverChangeKeys := by
  intro s t h
  have hst := stepTo_of_step h
  exact ⟨hst.same_of_hostParts (p := .key) (by decide), hst.same_of_hostParts (p := .font) (by decide),
    hst.same_of_hostParts (p := .renderFails) (by decide), hst.same_of_hostParts (p := .beepFails) (by decide)⟩

/-! ### The lifecycle (R33, R34, R211, R220) -/

theorem lifecycleInv_congr {s t : State} (hr : t.run = s.run) (hf : t.fault = s.fault) (hq : t.stopReq = s.stopReq)
    (h : LifecycleInv s) : LifecycleInv t := by
  unfold LifecycleInv at *
  rwa [hr, hf, hq]

theorem raiseFault_lifecycleInv (s : State) {c : Cause} (info : Word) (hc : c ≠ .none) :
    LifecycleInv (raiseFault s c info) := by
  simp [LifecycleInv, hc]

theorem ne_none_of_mayRaise {i : Instr} {c : Cause} (hc : c ∈ mayRaise i) : c ≠ .none := by
  rintro rfl
  cases i <;> simp [mayRaise] at hc

theorem Effect.lifecycleInv {i : Instr} {s t : State} (h : Effect i s t) (hs : LifecycleInv s) : LifecycleInv t := by
  cases h with
  | done _ hw =>
    exact lifecycleInv_congr (hw.onlyChanges .run (not_mem_ownParts (by decide) i))
      (hw.onlyChanges .fault (not_mem_ownParts (by decide) i)) (hw.onlyChanges .stopReq (not_mem_ownParts (by decide) i)) hs
  | raised u c info _ hc => exact raiseFault_lifecycleInv u info (ne_none_of_mayRaise hc)

theorem timerPhase_lifecycleInv {s : State} (hs : LifecycleInv s) : LifecycleInv (timerPhase s) := by
  have hd : LifecycleInv (tickDelay s) :=
    lifecycleInv_congr (tickDelay_run s) (tickDelay_fault s) (tickDelay_stopReq s) hs
  unfold timerPhase
  rcases tickSound_cases (tickDelay s) with ⟨-, e⟩ | ⟨-, -, e⟩ | ⟨-, -, e⟩
  · rwa [e]
  · rw [e]
    exact hd
  · rw [e]
    exact raiseFault_lifecycleInv _ _ (by decide)

theorem stopped_lifecycleInv {s : State} (hr : s.run = .running) (hs : LifecycleInv s) :
    LifecycleInv { s with run := .idle, stopReq := false } := by
  obtain ⟨-, hcause, hinfo⟩ := hs
  have hn : s.run ≠ .faulted := by rw [hr]; decide
  simp [LifecycleInv, hcause.mpr hn, hinfo hn]

theorem step_lifecycleInv {s t : State} (hs : LifecycleInv s) (h : step s = .next t) : LifecycleInv t := by
  cases stepTo_of_step h with
  | ignored => exact hs
  | stopped hr => exact stopped_lifecycleInv hr hs
  | fetchFault => exact raiseFault_lifecycleInv s _ (by decide)
  | decodeFault w => exact raiseFault_lifecycleInv _ w (by decide)
  | execFault _ _ _ _ _ _ he => exact (effect_of_exec he).lifecycleInv hs
  | completed _ _ u _ _ _ he => exact timerPhase_lifecycleInv ((effect_of_exec he).lifecycleInv hs)

/-- Settles O51: an execution leaves the three parts or raises a fault with a cause, and so does the timer phase. -/
theorem lifecycleStaysConsistent : Obligations.LifecycleStaysConsistent := fun _ _ => step_lifecycleInv

/-! ### The canonical form of memory -/

theorem memInv_congr {s t : State} (hf : t.font = s.font) (hm : t.mem = s.mem) (h : MemInv s) : MemInv t := by
  unfold MemInv at *
  rwa [hf, hm]

theorem Writes.memInv {ps : List Part} {s t : State} (hw : Writes ps s t) (hf : Part.font ∉ ps) (hm : Part.mem ∉ ps)
    (hs : MemInv s) : MemInv t :=
  memInv_congr (hw.onlyChanges .font hf) (hw.mem hm) hs

/-- Bytes written inside memory keep the form, and so do no bytes (R60). -/
theorem writeMany_memInv {s : State} {base : Nat} {bs : List Byte} (hs : MemInv s)
    (h : bs.length = 0 ∨ base + bs.length ≤ Config.memSize) :
    MemInv { s with mem := Memory.writeMany s.font s.mem base bs } := by
  rcases h with h0 | hb
  · obtain rfl := List.length_eq_zero_iff.mp h0
    exact hs
  · exact Memory.wf_writeMany bs hs hb

theorem exec_memInv {i : Instr} {s t : State} (hs : MemInv s) (h : exec i s = .next t) : MemInv t := by
  by_cases hm : Part.mem ∉ mayChange i
  · exact (exec_writes h).memInv (not_mem_mayChange_of_hostParts (by decide) i) hm hs
  · cases i with
    | ldBVx x =>
      rcases exec_ldBVx_cases x s with ⟨hb, e⟩ | ⟨-, e⟩
      · cases h.symm.trans e
        exact writeMany_memInv hs (.inr hb)
      · cases h.symm.trans e
        exact hs
    | ldMemVx x =>
      rcases exec_ldMemVx_cases x s with ⟨hb, e⟩ | ⟨-, -, e⟩
      · cases h.symm.trans e
        exact writeMany_memInv hs (by rwa [firstRegs_length])
      · cases h.symm.trans e
        exact hs
    | _ => exact absurd (by simp [mayChange]) hm

theorem step_memInv {s t : State} (hs : MemInv s) (h : step s = .next t) : MemInv t := by
  cases stepTo_of_step h with
  | ignored => exact hs
  | stopped => exact hs
  | fetchFault => exact hs
  | decodeFault => exact hs
  | execFault _ _ _ _ _ _ he => exact exec_memInv (s := advancePc s) hs he
  | completed _ _ u _ _ _ he =>
    exact (timerPhase_writes u).memInv (by decide) (by decide) (exec_memInv (s := advancePc s) hs he)

theorem step_inv {s t : State} (hs : Inv s) (h : step s = .next t) : Inv t := by
  obtain ⟨hm, hp, hl⟩ := hs
  exact ⟨step_memInv hm h, step_pcInv hp h, step_lifecycleInv hl h⟩

/-! ### Reset (R37, R240, R241) -/

/-- After construction the state is as after a reset. -/
theorem resetCore_reset : resetCore State.reset = State.reset := rfl

theorem resetCore_inv (s : State) : Inv (resetCore s) := by
  refine ⟨Memory.wf_nil _, ⟨?_, fun k h => ?_⟩, ?_⟩
  · rw [resetCore_pc]
    decide
  · simp [State.reset]
  · simp [LifecycleInv, State.reset]

/-- Settles O52: memory without cells is canonical, and the other values of the table are within their bounds. -/
theorem resetMeetsTheInvariants : Obligations.ResetMeetsTheInvariants := ⟨resetCore_inv State.reset, resetCore_inv⟩

theorem readByte_of_mem_nil {s : State} (hm : s.mem = []) {a : Nat} (ha : a < 4096) :
    readByte s a = some (blank s.font a) := by
  simp [readByte, hm, ha, Memory.read, findCell]

theorem resetCore_hasResetValues (s : State) : HasResetValues (resetCore s) := by
  refine ⟨fun x => ?v, rfl, rfl, rfl, fun k hk => ?stack, fun r c => pixel_clearedDisplay r c, rfl, rfl, fun k hk => ?key,
    fun a ha => ?font, fun a ha ha' => ?zero, rfl, rfl, rfl⟩
  case v => simp [readV, State.reset]
  case stack => simp [State.reset, hk]
  case key => simp [State.reset, hk]
  case font => rw [readByte_of_mem_nil rfl (by omega), blank, dif_pos ha]
  case zero => rw [readByte_of_mem_nil rfl ha', blank, dif_neg (by omega)]

/-- Settles O55: the table of R37 holds field by field, and the model's own fields stay. -/
theorem resetSetsEveryValue : Obligations.ResetSetsEveryValue :=
  ⟨resetCore_hasResetValues State.reset, fun s => ⟨resetCore_hasResetValues s, rfl, rfl, rfl, rfl, rfl, rfl⟩⟩

/-! ### The host's commands and reachable states -/

theorem setKey_writes (s : State) (index : Int) (level : Bool) : Writes [.key] s (setKey s index level) := by
  unfold setKey
  split
  · exact ⟨fun p hp => by cases p <;> simp_all [Part.same, readV, readByte], fun _ => rfl⟩
  · exact .refl _ s

/-- A command that leaves memory, FONT, pc, the stack and the lifecycle leaves the invariants. -/
theorem Writes.inv {ps : List Part} {s t : State} (hw : Writes ps s t)
    (hps : ∀ p ∈ [Part.font, .mem, .pc, .stack] ++ faultParts, p ∉ ps) (hs : Inv s) : Inv t := by
  obtain ⟨hm, hp, hl⟩ := hs
  exact ⟨hw.memInv (hps _ (by decide)) (hps _ (by decide)) hm,
    pcInv_congr (hw.onlyChanges .pc (hps _ (by decide))) (hw.onlyChanges .stack (hps _ (by decide))) hp,
    lifecycleInv_congr (hw.onlyChanges .run (hps _ (by decide))) (hw.onlyChanges .fault (hps _ (by decide)))
      (hw.onlyChanges .stopReq (hps _ (by decide))) hl⟩

theorem hostStart_inv {s : State} (hs : Inv s) : Inv (hostStart s) := by
  obtain ⟨hm, hp, hstop, hcause, hinfo⟩ := hs
  unfold hostStart
  split
  next hr =>
    have hn : s.run ≠ .faulted := by rw [hr]; decide
    exact ⟨hm, hp, by simp [LifecycleInv, hcause.mpr hn, hinfo hn]⟩
  next => exact ⟨hm, hp, hstop, hcause, hinfo⟩
  next => exact ⟨hm, hp, hstop, hcause, hinfo⟩

theorem hostStop_inv {s : State} (hs : Inv s) : Inv (hostStop s) := by
  obtain ⟨hm, hp, hstop, hcause, hinfo⟩ := hs
  unfold hostStop
  split
  next hr => exact ⟨hm, hp, fun _ => hr, hcause, hinfo⟩
  next => exact ⟨hm, hp, hstop, hcause, hinfo⟩
  next => exact ⟨hm, hp, hstop, hcause, hinfo⟩

/-- What a load answers: a program that fits is written from 512 on, one that does not changes nothing (R65, R209). -/
theorem hostLoad_cases {s t : State} {bytes : List Byte} {a : LoadAnswer} (h : hostLoad s bytes = .next (a, t)) :
    (bytes.length ≤ Config.progMax ∧ t = { s with mem := Memory.writeMany s.font s.mem Config.progBase bytes }) ∨
      t = s := by
  unfold hostLoad programWf at h
  split at h
  next =>
    split at h
    next hb =>
      cases h
      exact .inl ⟨of_decide_eq_true hb, rfl⟩
    next =>
      cases h
      exact .inr rfl
  next => cases h
  next => cases h

theorem hostLoad_inv {s t : State} {bytes : List Byte} {a : LoadAnswer} (hs : Inv s)
    (h : hostLoad s bytes = .next (a, t)) : Inv t := by
  rcases hostLoad_cases h with ⟨hb, rfl⟩ | rfl
  · obtain ⟨hm, hp, hl⟩ := hs
    exact ⟨writeMany_memInv hm (.inr (Nat.add_le_add_left hb Config.progBase)), hp, hl⟩
  · exact hs

/-- A load event goes on only where the load was answered. -/
theorem hostLoad_of_hostEvent {s t : State} {bytes : List Byte} (h : hostEvent (.load bytes) s = .next t) :
    ∃ a, hostLoad s bytes = .next (a, t) := by
  rw [hostEvent] at h
  split at h
  next a u hl =>
    cases h
    exact ⟨a, hl⟩
  next => cases h
  next => cases h

theorem hostEvent_inv {e : HostEvent} {s t : State} (hs : Inv s) (h : hostEvent e s = .next t) : Inv t := by
  cases e with
  | start =>
    cases h
    exact hostStart_inv hs
  | stop =>
    cases h
    exact hostStop_inv hs
  | reset =>
    cases h
    exact resetCore_inv s
  | press k =>
    cases h
    exact (setKey_writes s k true).inv (by decide) hs
  | release k =>
    cases h
    exact (setKey_writes s k false).inv (by decide) hs
  | load bytes =>
    obtain ⟨_, hl⟩ := hostLoad_of_hostEvent h
    exact hostLoad_inv hs hl

theorem applyInput_inv {e : Input} {s t : State} (hs : Inv s) (h : applyInput e s = .next t) : Inv t := by
  cases e with
  | tick => exact step_inv hs h
  | host e => exact hostEvent_inv hs h

/-- Settles O54, by induction on the inputs: a reset meets the invariants, and each input keeps them. -/
theorem reachableStatesMeetTheInvariants : Obligations.ReachableStatesMeetTheInvariants := by
  intro s hr
  induction hr with
  | initial s h => exact h ▸ resetCore_inv s
  | input s t e _ hn ih => exact applyInput_inv ih hn

end Sys2Proof.Proofs

/-! SUPPORT and PROOFS. Memory: what a byte reads after bytes were written, the word a fetch makes of two bytes, what a load
answers, and the statements of 20_memory.md that follow. -/

namespace Sys2Proof.Proofs

open Sys2Proof.Machine Sys2Proof.Safety

/-! ### Bytes -/

theorem readByte_eq_some {s : State} {a : Nat} {b : Byte} :
    readByte s a = some b ↔ a < Config.memSize ∧ Memory.read s.font s.mem a = b := by
  simp [readByte]

/-- Bytes written inside memory are what is read there. -/
theorem readByte_writeMany_inside (s : State) {base k : Nat} {bs : List Byte} {b : Byte}
    (hbase : base + bs.length ≤ Config.memSize) (h : bs[k]? = some b) :
    readByte { s with mem := Memory.writeMany s.font s.mem base bs } (base + k) = some b := by
  have hk : k < bs.length := (List.getElem?_eq_some_iff.mp h).1
  exact readByte_eq_some.mpr ⟨by omega, Memory.read_writeMany_inside _ _ h⟩

/-- Written bytes leave every other byte. -/
theorem writeMany_memExcept (s : State) (base : Nat) (bs : List Byte) :
    MemExcept base bs.length s { s with mem := Memory.writeMany s.font s.mem base bs } := by
  intro a ha
  simp only [readByte, Memory.read_writeMany_outside _ _ bs ha]

/-! ### The fetched word (R55) -/

theorem bytesWord_toNat (hi lo : Byte) : (bytesWord hi lo).toNat = 256 * hi.toNat + lo.toNat := by
  rw [bytesWord, BitVec.toNat_append, ← Nat.shiftLeft_add_eq_or_of_lt lo.isLt, Nat.shiftLeft_eq, Nat.mul_comm]

theorem bytesWord_high (hi lo : Byte) : (bytesWord hi lo).extractLsb' 8 8 = hi :=
  BitVec.extractLsb'_append_eq_left

theorem bytesWord_low (hi lo : Byte) : (bytesWord hi lo).extractLsb' 0 8 = lo :=
  BitVec.extractLsb'_append_eq_right

/-- A fetch reads the two bytes at pc. -/
theorem fetchWord_of_readByte {s : State} {hi lo : Byte} (hhi : readByte s s.pc.toNat = some hi)
    (hlo : readByte s (s.pc.toNat + 1) = some lo) : fetchWord s = some (bytesWord hi lo) := by
  obtain ⟨-, rfl⟩ := readByte_eq_some.mp hhi
  obtain ⟨hpc, rfl⟩ := readByte_eq_some.mp hlo
  exact if_pos hpc

/-- Settles O7: the fetched word is the two bytes put together. -/
theorem fetchIsBigEndian : Obligations.FetchIsBigEndian := fun _ hi lo hhi hlo =>
  ⟨bytesWord hi lo, fetchWord_of_readByte hhi hlo, bytesWord_toNat hi lo, bytesWord_high hi lo, bytesWord_low hi lo⟩

/-! ### Stores -/

/-- Settles O49: only the storing forms write cells, and they write them inside memory. -/
theorem memoryStaysCanonical : Obligations.MemoryStaysCanonical := fun _ _ => step_memInv

/-- The bytes that FX55 stores inside memory are the registers below X. -/
theorem readByte_firstRegs_stored (s : State) {x z : Reg} {a : Nat} (hbase : baseAddress s + x.toNat ≤ Config.memSize)
    (hz : z.toNat < x.toNat) (ha : a = baseAddress s + z.toNat) :
    readByte (advanceI { s with mem := Memory.writeMany s.font s.mem (baseAddress s) (firstRegs s x) } x) a =
      some (readV s z) := by
  rw [ha]
  exact readByte_writeMany_inside s (by rwa [firstRegs_length]) (firstRegs_get s hz)

/-- Settles O34: the store leaves pc, and the two bytes there are two of the registers stored. -/
theorem storeIsSeenByTheNextFetch : Obligations.StoreIsSeenByTheNextFetch := by
  intro x k k' s hkk hkx hbase hpc
  have hpc' : s.pc.toNat + 1 = baseAddress s + k'.toNat := by omega
  rcases exec_ldMemVx_cases x s with ⟨-, he⟩ | ⟨-, hout, -⟩
  · exact ⟨_, he, fetchWord_of_readByte (readByte_firstRegs_stored s hbase (by omega) hpc)
      (readByte_firstRegs_stored s hbase hkx hpc')⟩
  · exact absurd hbase (Nat.not_le.mpr hout)

/-! ### Loading a program (R65, R66, R209) -/

theorem hostLoad_of_fits {s : State} {bytes : List Byte} (hr : s.run = .idle) (hb : bytes.length ≤ Config.progMax) :
    hostLoad s bytes =
      .next (.success, { s with mem := Memory.writeMany s.font s.mem Config.progBase bytes }) := by
  simp [hostLoad, programWf, hr, hb]

theorem hostLoad_of_tooLarge {s : State} {bytes : List Byte} (hr : s.run = .idle) (hb : Config.progMax < bytes.length) :
    hostLoad s bytes = .next (.tooLarge, s) := by
  simp [hostLoad, programWf, hr, hb]

theorem hostLoad_of_not_idle {s : State} (bytes : List Byte) (hr : s.run ≠ .idle) :
    hostLoad s bytes = .refused .loadOutsideIdle := by
  unfold hostLoad
  split
  next h => exact absurd h hr
  next => rfl
  next => rfl

/-- Settles O56: a program that fits ends inside memory, so each of its bytes is read where it was copied to. -/
theorem loadCopiesAProgramThatFits : Obligations.LoadCopiesAProgramThatFits := by
  refine fun s bytes => ⟨fun hr hb => ⟨_, hostLoad_of_fits hr hb, fun k b hk => ?copied, ?frame, ?parts⟩,
    hostLoad_of_tooLarge, hostLoad_of_not_idle bytes⟩
  case copied => exact readByte_writeMany_inside s (Nat.add_le_add_left hb 512) hk
  case frame => exact writeMany_memExcept s _ bytes
  case parts => exact (mem_writes s _).onlyChanges

end Sys2Proof.Proofs

/-! SUPPORT and PROOFS. The encoding: the fields of a word against the formats, the masks of the rows read as conditions on
the fields, the row of each instruction, and the statements of 30_encoding.md that follow. -/

namespace Sys2Proof.Proofs

open Sys2Proof.Laws Sys2Proof.Safety

/-! ### The fields of a word and the formats (R81, R83) -/

@[simp] theorem fieldNNN_wordA (op : Nibble) (nnn : Addr12) : fieldNNN (wordA op nnn) = nnn :=
  BitVec.extractLsb'_append_eq_right

@[simp] theorem fieldNN_wordXK (op : Nibble) (x : Reg) (nn : Byte) : fieldNN (wordXK op x nn) = nn :=
  BitVec.extractLsb'_append_eq_right

@[simp] theorem fieldN_wordXYN (op : Nibble) (x y : Reg) (n : Nibble) : fieldN (wordXYN op x y n) = n :=
  BitVec.extractLsb'_append_eq_right

@[simp] theorem fieldOp_wordXK (op : Nibble) (x : Reg) (nn : Byte) : fieldOp (wordXK op x nn) = op := by
  refine BitVec.eq_of_getLsbD_eq fun k hk => ?_
  simp [fieldOp, wordXK_bit, hk, show ¬ 12 + k < 8 by omega]

@[simp] theorem fieldOp_wordXYN (op : Nibble) (x y : Reg) (n : Nibble) : fieldOp (wordXYN op x y n) = op := by
  refine BitVec.eq_of_getLsbD_eq fun k hk => ?_
  simp [fieldOp, wordXYN_bit, hk, show ¬ 12 + k < 4 by omega, show ¬ 12 + k < 8 by omega]

@[simp] theorem fieldX_wordXK (op : Nibble) (x : Reg) (nn : Byte) : fieldX (wordXK op x nn) = x := by
  refine BitVec.eq_of_getLsbD_eq fun k hk => ?_
  simp [fieldX, wordXK_bit, hk, show 8 + k < 12 by omega]

@[simp] theorem fieldX_wordXYN (op : Nibble) (x y : Reg) (n : Nibble) : fieldX (wordXYN op x y n) = x := by
  refine BitVec.eq_of_getLsbD_eq fun k hk => ?_
  simp [fieldX, wordXYN_bit, hk, show ¬ 8 + k < 4 by omega, show 8 + k < 12 by omega]

@[simp] theorem fieldY_wordXYN (op : Nibble) (x y : Reg) (n : Nibble) : fieldY (wordXYN op x y n) = y := by
  refine BitVec.eq_of_getLsbD_eq fun k hk => ?_
  simp [fieldY, wordXYN_bit, hk, show 4 + k < 8 by omega]

theorem wordA_fields (w : Word) : wordA (fieldOp w) (fieldNNN w) = w :=
  (BitVec.extractLsb'_append_extractLsb'_eq_extractLsb' rfl).trans BitVec.extractLsb'_eq_self

theorem bytesWord_fields (w : Word) : bytesWord (w.extractLsb' 8 8) (fieldNN w) = w :=
  (BitVec.extractLsb'_append_extractLsb'_eq_extractLsb' rfl).trans BitVec.extractLsb'_eq_self

theorem fieldOp_append_fieldX (w : Word) : fieldOp w ++ fieldX w = w.extractLsb' 8 8 :=
  BitVec.extractLsb'_append_extractLsb'_eq_extractLsb' rfl

theorem wordXK_fields (w : Word) : wordXK (fieldOp w) (fieldX w) (fieldNN w) = w := by
  rw [wordXK, fieldOp_append_fieldX]
  exact bytesWord_fields w

theorem wordXYN_fields (w : Word) : wordXYN (fieldOp w) (fieldX w) (fieldY w) (fieldN w) = w := by
  have hXY : w.extractLsb' 8 8 ++ fieldY w = w.extractLsb' 4 12 :=
    BitVec.extractLsb'_append_extractLsb'_eq_extractLsb' rfl
  rw [wordXYN, fieldOp_append_fieldX, hXY]
  exact (BitVec.extractLsb'_append_extractLsb'_eq_extractLsb' rfl).trans BitVec.extractLsb'_eq_self

/-- The field of `len` bits from bit `start` on is the word shifted down, under a mask of `len` ones. -/
theorem extractLsb'_eq_mask (w : Word) (start : Nat) {len : Nat} (h : len ≤ 16) :
    (w.extractLsb' start len).setWidth 16 = w >>> start &&& BitVec.ofNat 16 (2 ^ len - 1) := by
  have hpos := Nat.two_pow_pos len
  have hlen : 2 ^ len ≤ 2 ^ 16 := Nat.pow_le_pow_right (by decide) h
  have hmask : (2 ^ len - 1) % 2 ^ 16 = 2 ^ len - 1 := Nat.mod_eq_of_lt (by omega)
  have hfield : w.toNat >>> start % 2 ^ len < 2 ^ 16 := (Nat.mod_lt _ hpos).trans_le hlen
  apply BitVec.eq_of_toNat_eq
  simp only [BitVec.toNat_setWidth, BitVec.extractLsb'_toNat, BitVec.toNat_and, BitVec.toNat_ushiftRight,
    BitVec.toNat_ofNat, hmask, Nat.and_two_pow_sub_one_eq_mod, Nat.mod_eq_of_lt hfield]

theorem extractLsb'_low_eq_mask (w : Word) {len : Nat} (h : len ≤ 16) :
    (w.extractLsb' 0 len).setWidth 16 = w &&& BitVec.ofNat 16 (2 ^ len - 1) := by
  rw [extractLsb'_eq_mask w 0 h, BitVec.ushiftRight_zero]

theorem extractLsb'_high_eq_shift (w : Word) : (w.extractLsb' 12 4).setWidth 16 = w >>> 12 := by
  apply BitVec.eq_of_toNat_eq
  have := w.isLt
  simp only [BitVec.toNat_setWidth, BitVec.extractLsb'_toNat, BitVec.toNat_ushiftRight, Nat.shiftRight_eq_div_pow]
  omega

/-- Settles O4: X and Y are a shift and a mask; the fields that end at bit 0 need no shift, and OP needs no mask. -/
theorem fieldsAreDirectMasks : Obligations.FieldsAreDirectMasks := fun w =>
  ⟨extractLsb'_high_eq_shift w, extractLsb'_eq_mask w 8 (by decide), extractLsb'_eq_mask w 4 (by decide),
    extractLsb'_low_eq_mask w (by decide), extractLsb'_low_eq_mask w (by decide), extractLsb'_low_eq_mask w (by decide)⟩

/-! ### The masks of R86 as conditions on the fields -/

/-- The mask of format Z compares the whole word. -/
theorem and_FFFF (w : Word) : w &&& 0xFFFF#16 = w := BitVec.and_allOnes

theorem and_F000 (w : Word) : w &&& 0xF000#16 = wordXYN (fieldOp w) 0 0 0 :=
  (congrArg (· &&& 0xF000#16) (wordXYN_fields w).symm).trans (RowMatch.wordXYN_mask ..)

theorem and_F00F (w : Word) : w &&& 0xF00F#16 = wordXYN (fieldOp w) 0 0 (fieldN w) :=
  (congrArg (· &&& 0xF00F#16) (wordXYN_fields w).symm).trans (RowMatch.wordXY_mask ..)

theorem and_F0FF (w : Word) : w &&& 0xF0FF#16 = wordXK (fieldOp w) 0 (fieldNN w) :=
  (congrArg (· &&& 0xF0FF#16) (wordXK_fields w).symm).trans (RowMatch.wordXS_mask ..)

section
variable {b w : Word}

/-- The mask of formats A, XK and XYN compares the first digit. (The field of `b` is written out, so that `simp` computes
it for a word of the table.) -/
theorem and_F000_eq_iff (hb : b &&& 0xF000#16 = b) : w &&& 0xF000#16 = b ↔ fieldOp w = b.extractLsb' 12 4 := by
  constructor
  · intro h
    rw [← h, and_F000]
    exact (fieldOp_wordXYN ..).symm
  · intro (hop : fieldOp w = fieldOp b)
    rw [← hb, and_F000, and_F000, hop]

/-- The mask of format XY compares the first and the last digit. -/
theorem and_F00F_eq_iff (hb : b &&& 0xF00F#16 = b) :
    w &&& 0xF00F#16 = b ↔ fieldOp w = b.extractLsb' 12 4 ∧ fieldN w = b.extractLsb' 0 4 := by
  constructor
  · intro h
    rw [← h, and_F00F]
    exact ⟨(fieldOp_wordXYN ..).symm, (fieldN_wordXYN ..).symm⟩
  · rintro ⟨hop : fieldOp w = fieldOp b, hn : fieldN w = fieldN b⟩
    rw [← hb, and_F00F, and_F00F, hop, hn]

/-- The mask of format XS compares the first digit and the low byte. -/
theorem and_F0FF_eq_iff (hb : b &&& 0xF0FF#16 = b) :
    w &&& 0xF0FF#16 = b ↔ fieldOp w = b.extractLsb' 12 4 ∧ fieldNN w = b.extractLsb' 0 8 := by
  constructor
  · intro h
    rw [← h, and_F0FF]
    exact ⟨(fieldOp_wordXK ..).symm, (fieldNN_wordXK ..).symm⟩
  · rintro ⟨hop : fieldOp w = fieldOp b, hnn : fieldNN w = fieldNN b⟩
    rw [← hb, and_F0FF, and_F0FF, hop, hnn]

end

/-! ### The row of an instruction (R86) -/

theorem ctorIdx_lt (i : Instr) : i.ctorIdx < rows.length := by
  cases i <;> exact Nat.le_of_ble_eq_true rfl

/-- The row that stands where the instruction's constructor stands: both lists are in the order of R86. -/
def rowOf (i : Instr) : Row := rows[i.ctorIdx]'(ctorIdx_lt i)

theorem rowOf_mem (i : Instr) : rowOf i ∈ rows := List.getElem_mem _

theorem rowOf_mask (i : Instr) : (rowOf i).mask = RowMatch.maskOf i.format := by cases i <;> rfl

theorem rowOf_bits (i : Instr) : (rowOf i).bits = RowMatch.matchOf i := by cases i <;> rfl

/-- The fields that the row reads from the instruction's word are its operands, format by format. -/
theorem rowOf_build_encode (i : Instr) : (rowOf i).build (encode i) = i := by
  cases i
  case cls | ret => rfl
  case jp nnn | call nnn | ldINnn nnn | jpV0 nnn => exact congrArg _ (fieldNNN_wordA _ nnn)
  case seVxNn x nn | sneVxNn x nn | ldVxNn x nn | addVxNn x nn | rnd x nn =>
    exact congrArg₂ _ (fieldX_wordXK _ x nn) (fieldNN_wordXK _ x nn)
  case drw x y n =>
    exact congr (congrArg₂ _ (fieldX_wordXYN _ x y n) (fieldY_wordXYN _ x y n)) (fieldN_wordXYN _ x y n)
  case skp x | sknp x | ldVxDt x | ldVxK x | ldDtVx x | ldStVx x | addIVx x | ldFVx x | ldBVx x | ldMemVx x | ldVxMem x =>
    exact congrArg _ (fieldX_wordXK _ x _)
  case seVxVy x y | ldVxVy x y | or x y | and x y | xor x y | addVxVy x y | sub x y | shr x y | subn x y | shl x y
      | sneVxVy x y =>
    exact congrArg₂ _ (fieldX_wordXYN _ x y _) (fieldY_wordXYN _ x y _)

theorem encode_matches (i : Instr) : encode i &&& RowMatch.maskOf i.format = RowMatch.matchOf i :=
  (match i with
  | .cls => RowMatch.cls | .ret => RowMatch.ret | .jp nnn => RowMatch.jp nnn | .call nnn => RowMatch.call nnn
  | .seVxNn x nn => RowMatch.seVxNn x nn | .sneVxNn x nn => RowMatch.sneVxNn x nn
  | .seVxVy x y => RowMatch.seVxVy x y | .ldVxNn x nn => RowMatch.ldVxNn x nn
  | .addVxNn x nn => RowMatch.addVxNn x nn | .ldVxVy x y => RowMatch.ldVxVy x y
  | .or x y => RowMatch.or x y | .and x y => RowMatch.and x y | .xor x y => RowMatch.xor x y
  | .addVxVy x y => RowMatch.addVxVy x y | .sub x y => RowMatch.sub x y | .shr x y => RowMatch.shr x y
  | .subn x y => RowMatch.subn x y | .shl x y => RowMatch.shl x y | .sneVxVy x y => RowMatch.sneVxVy x y
  | .ldINnn nnn => RowMatch.ldINnn nnn | .jpV0 nnn => RowMatch.jpV0 nnn | .rnd x nn => RowMatch.rnd x nn
  | .drw x y n => RowMatch.drw x y n | .skp x => RowMatch.skp x | .sknp x => RowMatch.sknp x
  | .ldVxDt x => RowMatch.ldVxDt x | .ldVxK x => RowMatch.ldVxK x | .ldDtVx x => RowMatch.ldDtVx x
  | .ldStVx x => RowMatch.ldStVx x | .addIVx x => RowMatch.addIVx x | .ldFVx x => RowMatch.ldFVx x
  | .ldBVx x => RowMatch.ldBVx x | .ldMemVx x => RowMatch.ldMemVx x
  | .ldVxMem x => RowMatch.ldVxMem x : RowMatch.Statement i).2

theorem rowOf_selects_encode (i : Instr) : (rowOf i).selects (encode i) = true := by
  rw [Row.selects, beq_iff_eq, rowOf_mask, rowOf_bits, encode_matches]

theorem decodeWord_encode (i : Instr) : decodeWord (encode i) = some i :=
  (decodeWord_of_selects (rowOf_mem i) (rowOf_selects_encode i)).trans (congrArg some (rowOf_build_encode i))

/-- The two bytes of a word that decodes, with any bytes after them. -/
theorem decodeBytes_wordBytes {w : Word} {i : Instr} (h : decodeWord w = some i) (rest : List Byte) :
    decodeBytes (wordBytes w ++ rest) = .ok (i, rest) := by
  have hw : bytesWord (w.extractLsb' 8 8) (w.extractLsb' 0 8) = w := bytesWord_fields w
  simp [wordBytes, decodeBytes, hw, h]

/-- Settles O1: the word of an instruction is selected by the instruction's own row, which reads the operands back. -/
theorem decodeInvertsEncode : Obligations.DecodeInvertsEncode := fun i rest =>
  ⟨decodeWord_encode i, decodeBytes_wordBytes (decodeWord_encode i) rest⟩

/-! ### The word of what a row builds (R85, R86) -/

section
variable {b w : Word}

theorem wordA_of_mask (hb : b &&& 0xF000#16 = b) (h : w &&& 0xF000#16 = b) :
    wordA (b.extractLsb' 12 4) (fieldNNN w) = w := by
  rw [← (and_F000_eq_iff hb).mp h, wordA_fields]

theorem wordXK_of_mask (hb : b &&& 0xF000#16 = b) (h : w &&& 0xF000#16 = b) :
    wordXK (b.extractLsb' 12 4) (fieldX w) (fieldNN w) = w := by
  rw [← (and_F000_eq_iff hb).mp h, wordXK_fields]

theorem wordXYN_of_mask (hb : b &&& 0xF000#16 = b) (h : w &&& 0xF000#16 = b) :
    wordXYN (b.extractLsb' 12 4) (fieldX w) (fieldY w) (fieldN w) = w := by
  rw [← (and_F000_eq_iff hb).mp h, wordXYN_fields]

theorem wordXY_of_mask (hb : b &&& 0xF00F#16 = b) (h : w &&& 0xF00F#16 = b) :
    wordXYN (b.extractLsb' 12 4) (fieldX w) (fieldY w) (b.extractLsb' 0 4) = w := by
  obtain ⟨hop, hn⟩ := (and_F00F_eq_iff hb).mp h
  rw [← hop, ← hn, wordXYN_fields]

theorem wordXS_of_mask (hb : b &&& 0xF0FF#16 = b) (h : w &&& 0xF0FF#16 = b) :
    wordXK (b.extractLsb' 12 4) (fieldX w) (b.extractLsb' 0 8) = w := by
  obtain ⟨hop, hnn⟩ := (and_F0FF_eq_iff hb).mp h
  rw [← hop, ← hnn, wordXK_fields]

theorem eq_of_mask_FFFF (h : w &&& 0xFFFF#16 = b) : b = w := h.symm.trans (and_FFFF w)

end

/-! Row by row: the digits compared and the fields read make up the word. -/

theorem encode_build_rowsLow (w : Word) : ∀ r ∈ rowsLow, w &&& r.mask = r.bits → encode (r.build w) = w := by
  simp only [rowsLow, List.forall_mem_cons]
  exact ⟨eq_of_mask_FFFF, eq_of_mask_FFFF, wordA_of_mask rfl, wordA_of_mask rfl, wordXK_of_mask rfl, wordXK_of_mask rfl,
    wordXY_of_mask rfl, wordXK_of_mask rfl, wordXK_of_mask rfl, nofun⟩

theorem encode_build_rowsAlu (w : Word) : ∀ r ∈ rowsAlu, w &&& r.mask = r.bits → encode (r.build w) = w := by
  intro r hr
  fin_cases hr <;> exact wordXY_of_mask rfl

theorem encode_build_rowsHigh (w : Word) : ∀ r ∈ rowsHigh, w &&& r.mask = r.bits → encode (r.build w) = w := by
  simp only [rowsHigh, List.forall_mem_cons]
  exact ⟨wordXY_of_mask rfl, wordA_of_mask rfl, wordA_of_mask rfl, wordXK_of_mask rfl, wordXYN_of_mask rfl,
    wordXS_of_mask rfl, wordXS_of_mask rfl, nofun⟩

theorem encode_build_rowsF (w : Word) : ∀ r ∈ rowsF, w &&& r.mask = r.bits → encode (r.build w) = w := by
  intro r hr
  fin_cases hr <;> exact wordXS_of_mask rfl

theorem encode_build_of_selects {r : Row} (hr : r ∈ rows) {w : Word} (hs : r.selects w = true) :
    encode (r.build w) = w := by
  have h := beq_iff_eq.mp hs
  simp only [rows, List.mem_append] at hr
  obtain ((hlow | halu) | hhigh) | hf := hr
  · exact encode_build_rowsLow w r hlow h
  · exact encode_build_rowsAlu w r halu h
  · exact encode_build_rowsHigh w r hhigh h
  · exact encode_build_rowsF w r hf h

theorem encode_of_decodeWord {w : Word} {i : Instr} (h : decodeWord w = some i) : encode i = w := by
  obtain ⟨r, hr, hs, rfl⟩ := selects_of_decodeWord h
  exact encode_build_of_selects hr hs

theorem decodeTableWord_toNat {w : Word} {i : Instr} (h : decodeWord w = some i) :
    decodeTableWord 16 w.toNat = some i := by
  have hw : BitVec.ofNat 16 (w.toNat % 2 ^ 16) = w := by
    rw [Nat.mod_eq_of_lt w.isLt, BitVec.ofNat_toNat, BitVec.setWidth_eq]
  have hd : decodeBytes (wordBytes w) = .ok (i, []) := decodeBytes_wordBytes h []
  rw [decodeTableWord, hw, hd]

/-- Settles O2: the row that selects the word compares the digits that it does not read, so its instruction has them all. -/
theorem encodeInvertsDecode : Obligations.EncodeInvertsDecode := fun _ _ h =>
  ⟨encode_of_decodeWord h, decodeTableWord_toNat h⟩

/-! ### Unknown words (R87) -/

/-! A row of each list selects the word, in terms of the word's fields. -/

theorem rowsLow_select_iff (w : Word) : (∃ r ∈ rowsLow, w &&& r.mask = r.bits) ↔
    (fieldOp w = 0x0 ∧ (w = 0x00E0 ∨ w = 0x00EE)) ∨ fieldOp w ∈ ([0x1, 0x2, 0x3, 0x4] : List Nibble) ∨
      (fieldOp w = 0x5 ∧ fieldN w = 0x0) ∨ fieldOp w ∈ ([0x6, 0x7] : List Nibble) := by
  have hop : w = 0x00E0#16 ∨ w = 0x00EE#16 → fieldOp w = 0x0#4 := by rintro (rfl | rfl) <;> rfl
  simp [rowsLow, and_FFFF, and_F000_eq_iff, and_F00F_eq_iff, and_iff_right_of_imp hop, or_assoc]

theorem rowsAlu_select_iff (w : Word) : (∃ r ∈ rowsAlu, w &&& r.mask = r.bits) ↔
    fieldOp w = 0x8 ∧ fieldN w ∈ ([0x0, 0x1, 0x2, 0x3, 0x4, 0x5, 0x6, 0x7, 0xE] : List Nibble) := by
  simp [rowsAlu, and_F00F_eq_iff, and_or_left]

theorem rowsHigh_select_iff (w : Word) : (∃ r ∈ rowsHigh, w &&& r.mask = r.bits) ↔
    (fieldOp w = 0x9 ∧ fieldN w = 0x0) ∨ fieldOp w ∈ ([0xA, 0xB, 0xC, 0xD] : List Nibble) ∨
      (fieldOp w = 0xE ∧ fieldNN w ∈ ([0x9E, 0xA1] : List Byte)) := by
  simp [rowsHigh, and_F000_eq_iff, and_F00F_eq_iff, and_F0FF_eq_iff, and_or_left, or_assoc]

theorem rowsF_select_iff (w : Word) : (∃ r ∈ rowsF, w &&& r.mask = r.bits) ↔
    fieldOp w = 0xF ∧ fieldNN w ∈ ([0x07, 0x0A, 0x15, 0x18, 0x1E, 0x29, 0x33, 0x55, 0x65] : List Byte) := by
  simp [rowsF, and_F0FF_eq_iff, and_or_left]

theorem decodeWord_eq_none_iff (w : Word) : decodeWord w = none ↔ ¬ ∃ r ∈ rows, w &&& r.mask = r.bits := by
  simp [decodeWord, Row.selects]

theorem rows_select_iff (w : Word) : (∃ r ∈ rows, w &&& r.mask = r.bits) ↔
    (((∃ r ∈ rowsLow, w &&& r.mask = r.bits) ∨ ∃ r ∈ rowsAlu, w &&& r.mask = r.bits) ∨
      ∃ r ∈ rowsHigh, w &&& r.mask = r.bits) ∨ ∃ r ∈ rowsF, w &&& r.mask = r.bits := by
  simp only [rows, List.mem_append, or_and_right, exists_or]

/-- The families whose words are all instructions, and the six that R87 lists. -/
theorem family_cases (op : Nibble) :
    op ∈ ([0x1, 0x2, 0x3, 0x4, 0x6, 0x7, 0xA, 0xB, 0xC, 0xD] : List Nibble) ∨
      op = 0x0 ∨ op = 0x5 ∨ op = 0x8 ∨ op = 0x9 ∨ op = 0xE ∨ op = 0xF := by
  decide +revert

/-- The last digits that family 8 leaves without an instruction. -/
theorem mem_unknownAlu_iff (n : Nibble) : n ∈ ([0x8, 0x9, 0xA, 0xB, 0xC, 0xD, 0xF] : List Nibble) ↔
    n ∉ ([0x0, 0x1, 0x2, 0x3, 0x4, 0x5, 0x6, 0x7, 0xE] : List Nibble) := by
  decide +revert

/-- Settles O3: in each family, the words that its rows leave are those that R87 lists for it. -/
theorem unknownWordsAreThoseOfTheFamilies : Obligations.UnknownWordsAreThoseOfTheFamilies := by
  intro w
  rw [decodeWord_eq_none_iff, rows_select_iff, rowsLow_select_iff, rowsAlu_select_iff, rowsHigh_select_iff,
    rowsF_select_iff, UnknownByFamily, mem_unknownAlu_iff]
  generalize fieldOp w = op
  rcases family_cases op with hwhole | rfl | rfl | rfl | rfl | rfl | rfl
  case inl => fin_cases hwhole <;> simp
  all_goals simp

/-! ### Words of the test vectors -/

/-- Settles O5: the map is evaluated on each of the words. -/
theorem wordsOfTheSpecDecode : Obligations.WordsOfTheSpecDecode := by
  unfold Obligations.WordsOfTheSpecDecode
  decide

end Sys2Proof.Proofs

/-! SUPPORT and PROOFS. The step cycle: what a tick does in each case, the step of an instruction that is fetched, the timer
phase by its Beep, and the statements of 40_step_cycle.md that follow. -/

namespace Sys2Proof.Proofs

open Sys2Proof.Machine Sys2Proof.Safety

/-! ### The tick, case by case (R100 to R104, R218, R220) -/

section
variable {s : State}

theorem step_of_not_running (hr : s.run ≠ .running) : step s = .next s := by
  unfold step tick
  split
  next => rfl
  next => rfl
  next h => exact absurd h hr

theorem step_of_stopReq (hr : s.run = .running) (hq : s.stopReq = true) :
    step s = .next { s with run := .idle, stopReq := false } := by
  simp [step, tick, hr, hq]

/-- A step that begins runs the whole cycle. -/
theorem step_of_steps (hs : Steps s) : step s = runCycle exec s := by
  obtain ⟨hr, hq⟩ := hs
  simp [step, tick, hr, hq]

theorem step_of_fetchWord_none (hs : Steps s) (hw : fetchWord s = none) :
    step s = .next (raiseFault s .decodeFault s.pc) := by
  rw [step_of_steps hs, runCycle, hw]

theorem step_of_decodeWord_none (hs : Steps s) {w : Word} (hw : fetchWord s = some w) (hd : decodeWord w = none) :
    step s = .next (raiseFault (advancePc s) .unknownOpcode w) := by
  simp only [step_of_steps hs, runCycle, hw, hd]

theorem step_of_decodeWord (hs : Steps s) {w : Word} {i : Instr} (hw : fetchWord s = some w)
    (hd : decodeWord w = some i) : step s = afterExecute (exec i (advancePc s)) := by
  simp only [step_of_steps hs, runCycle, hw, hd]

/-- R102: at 4095 and above the second byte is outside memory. -/
theorem fetchWord_of_pc_ge (h : 4095 ≤ s.pc.toNat) : fetchWord s = none := by
  rcases fetchWord_cases s with ⟨hp, -⟩ | ⟨-, e⟩
  · exact absurd hp (Nat.not_lt.mpr (Nat.succ_le_succ h))
  · exact e

/-- A step that finds no instruction at pc faults with both timers and the count of Beeps as they were. -/
theorem step_of_no_instruction (hs : Steps s)
    (h : 4095 ≤ s.pc.toNat ∨ ∃ w, fetchWord s = some w ∧ decodeWord w = none) :
    ∃ t, step s = .next t ∧ t.run = .faulted ∧ t.dt = s.dt ∧ t.st = s.st ∧ t.beeps = s.beeps := by
  rcases h with hpc | ⟨w, hw, hd⟩
  · exact ⟨_, step_of_fetchWord_none hs (fetchWord_of_pc_ge hpc), rfl, rfl, rfl, rfl⟩
  · exact ⟨_, step_of_decodeWord_none hs hw hd, rfl, rfl, rfl, rfl⟩

end

/-- Settles O6: outside Running the tick is ignored, and in Running the pending stop is looked at first. -/
theorem tickBoundaryObeysLifecycle : Obligations.TickBoundaryObeysLifecycle :=
  fun _ => ⟨step_of_not_running, step_of_stopReq⟩

/-- No case of a tick is without a next state, because no execution is. -/
theorem step_answers (s : State) : ∃ t, step s = .next t := by
  rcases tick_cases exec s with
    ⟨-, e⟩ | ⟨-, -, e⟩ | ⟨-, -, -, e⟩ | ⟨-, -, w, -, -, e⟩ | ⟨-, -, w, i, -, -, e⟩
  · exact ⟨_, e⟩
  · exact ⟨_, e⟩
  · exact ⟨_, e⟩
  · exact ⟨_, e⟩
  · obtain ⟨t, he, -⟩ := exec_effect i (advancePc s)
    exact ⟨_, e.trans (congrArg afterExecute he)⟩

/-- Settles O44: every instruction answers a next state with its effect, and so every case of a tick does. -/
theorem everyTickAnswersANextState : Obligations.EveryTickAnswersANextState := by
  refine ⟨fun i s => ?_, step_answers⟩
  obtain ⟨t, he, -⟩ := exec_effect i s
  exact ⟨t, he⟩

/-! ### The step of a fetched instruction (R101 to R104) -/

theorem decodeWord_of_decodeBytes {hi lo : Byte} {i : Instr} {bs rest : List Byte}
    (h : decodeBytes (hi :: lo :: bs) = .ok (i, rest)) : decodeWord (bytesWord hi lo) = some i := by
  rw [decodeBytes] at h
  split at h
  next j hd =>
    cases h
    exact hd
  next => cases h

section
variable {s t : State} {i : Instr}

theorem step_of_fetches (hf : Fetches s i) : step s = afterExecute (exec i (advancePc s)) := by
  obtain ⟨hr, hq, hi, lo, hhi, hlo, hd⟩ := hf
  exact step_of_decodeWord ⟨hr, hq⟩ (fetchWord_of_readByte hhi hlo) (decodeWord_of_decodeBytes hd)

theorem step_of_exec (hf : Fetches s i) (he : exec i (advancePc s) = .next t) :
    step s = .next (if t.run = .faulted then t else timerPhase t) := by
  rw [step_of_fetches hf, he, afterExecute]

theorem step_of_exec_faulted (hf : Fetches s i) (he : exec i (advancePc s) = .next t) (ht : t.run = .faulted) :
    step s = .next t := by
  rw [step_of_exec hf he, if_pos ht]

theorem step_of_exec_completed (hf : Fetches s i) (he : exec i (advancePc s) = .next t) (ht : t.run ≠ .faulted) :
    step s = .next (timerPhase t) := by
  rw [step_of_exec hf he, if_neg ht]

end

/-- Settles O8: the fetched word decodes to the instruction, and the cycle executes it before the timer phase. -/
theorem stepRunsDecodedInstruction : Obligations.StepRunsDecodedInstruction :=
  fun _ _ hf => ⟨step_of_fetches hf, fun _ he => step_of_exec hf he⟩

/-! ### The timer phase (R105, R106) -/

theorem tickDelay_writes (s : State) : Writes [.dt] s (tickDelay s) := by
  unfold tickDelay
  split
  · exact .refl _ s
  · exact setDt_writes s _

theorem beeps_writes (s : State) (n : Nat) : Writes [.beeps] s { s with beeps := n } :=
  ⟨fun p hp => by cases p <;> simp_all [Part.same, readV, readByte], fun _ => rfl⟩

/-- After the delay timer, one more Beep event was emitted; ST still is what it was. -/
def beeped (s : State) : State := { tickDelay s with beeps := s.beeps + 1 }

theorem beeped_writes (s : State) : Writes [.dt, .beeps] s (beeped s) :=
  (tickDelay_writes s).comp (beeps_writes _ _)

@[simp] theorem beeped_st (s : State) : (beeped s).st = s.st := tickDelay_st s
@[simp] theorem beeped_run (s : State) : (beeped s).run = s.run := tickDelay_run s
@[simp] theorem beeped_beeps (s : State) : (beeped s).beeps = s.beeps + 1 := rfl

/-- The sound timer does not look at DT. -/
@[simp] theorem tickSound_dt (s : State) : (tickSound s).dt = s.dt := by
  rcases tickSound_cases s with ⟨-, e⟩ | ⟨-, -, e⟩ | ⟨-, -, e⟩ <;> simp [e]

/-- The host's answers to Beeps are not the timers' to change. -/
@[simp] theorem beepOk_timerPhase (s : State) (n : Nat) : beepOk (timerPhase s) n = beepOk s n := by
  have hfails : (timerPhase s).beepFails = s.beepFails := (timerPhase_writes s).onlyChanges .beepFails (by decide)
  rw [beepOk, hfails, beepOk]

theorem timerPhase_dt (s : State) : (timerPhase s).dt.toNat = s.dt.toNat - 1 := by
  rw [timerPhase, tickSound_dt, tickDelay_dt]

section
variable {s : State}

theorem timerPhase_of_st_zero (hst : s.st = 0) : timerPhase s = tickDelay s := by
  rw [timerPhase, tickSound, if_pos (by rwa [tickDelay_st])]

theorem timerPhase_of_beepOk (hst : s.st ≠ 0) (hb : beepOk s s.beeps = true) :
    timerPhase s = setSt (beeped s) (s.st - 1) := by
  rw [timerPhase, tickSound, if_neg (by rwa [tickDelay_st]), if_pos (by simpa using hb), tickDelay_beeps, tickDelay_st]
  rfl

theorem timerPhase_of_beepFail (hst : s.st ≠ 0) (hb : beepOk s s.beeps = false) :
    timerPhase s = raiseFault (beeped s) .rendererFault 1 := by
  rw [timerPhase, tickSound, if_neg (by rwa [tickDelay_st]), if_neg (by simpa using hb), tickDelay_beeps]
  rfl

/-- ST counts down by one without wrapping. -/
theorem timerPhase_st_of_beepOk (hst : s.st ≠ 0) (hb : beepOk s s.beeps = true) :
    (timerPhase s).st.toNat + 1 = s.st.toNat := by
  rw [timerPhase_of_beepOk hst hb, setSt_st]
  bv_omega

end

/-! ### The statements about a failure and about the timers -/

/-- Settles O12: the step ends with the timer phase, which counts DT down whatever the Beep is answered. -/
theorem delayTimerCountsDownToZero : Obligations.DelayTimerCountsDownToZero :=
  fun _ t _ hf he ht => ⟨timerPhase t, step_of_exec_completed hf he ht, timerPhase_dt t⟩

/-- Settles O11: a fault before the timer phase ends the step there, and a failing Beep ends it before ST is written. -/
theorem firstFailureEndsTheStep : Obligations.FirstFailureEndsTheStep := by
  refine ⟨fun s t i hf he ht => step_of_exec_faulted hf he ht, fun s hr hq => step_of_no_instruction ⟨hr, hq⟩, ?_⟩
  intro s t i hf he ht hst hb
  have hu := timerPhase_of_beepFail hst hb
  refine ⟨timerPhase t, step_of_exec_completed hf he ht, ?run, ?st, timerPhase_dt t, ?frame⟩
  case run => rw [hu, raiseFault_run]
  case st => rw [hu, raiseFault_st, beeped_st]
  case frame =>
    rw [hu]
    exact (((beeped_writes t).comp (raiseFault_writes _ _ _)).mono (by decide)).onlyChanges

/-- Settles O13, by the three cases of the timer phase: no Beep, a Beep answered ok, a Beep answered fail. -/
theorem soundTimerBeepsWhileNonzero : Obligations.SoundTimerBeepsWhileNonzero := by
  intro s t i hf he ht
  have hstep : step s = .next (timerPhase t) := step_of_exec_completed hf he ht
  refine ⟨fun hst => ⟨_, hstep, ?silent⟩, fun hst hb => ⟨_, hstep, timerPhase_st_of_beepOk hst hb, ?ok⟩,
    fun hst hb => ⟨_, hstep, ?fail⟩⟩
  case silent =>
    rw [timerPhase_of_st_zero hst]
    exact (tickDelay_writes t).onlyChanges
  case ok =>
    rw [timerPhase_of_beepOk hst hb]
    exact ⟨rfl, (((beeped_writes t).comp (setSt_writes _ _)).mono (by decide)).onlyChanges⟩
  case fail =>
    rw [timerPhase_of_beepFail hst hb]
    exact ⟨rfl, rfl, beeped_st t, rfl⟩

/-- Settles O14, by induction on `k`: the first timer phase emits one Beep, which is answered ok, and leaves ST at `k`. -/
theorem soundTimerEmitsExactlyItsValueInBeeps : Obligations.SoundTimerEmitsExactlyItsValueInBeeps := by
  intro k
  induction k with
  | zero =>
    intro s hk _
    exact ⟨BitVec.eq_of_toNat_eq hk, rfl, rfl⟩
  | succ k ih =>
    intro s hk hok
    have hst : s.st ≠ 0 := by
      intro h0
      simp [h0] at hk
    have hb : beepOk s s.beeps = true := hok _ (by omega) (by omega)
    have hst' := timerPhase_st_of_beepOk hst hb
    have hbeeps : (timerPhase s).beeps = s.beeps + 1 := by rw [timerPhase_of_beepOk hst hb, setSt_beeps, beeped_beeps]
    have hrun : (timerPhase s).run = s.run := by rw [timerPhase_of_beepOk hst hb, setSt_run, beeped_run]
    have hok' (n : Nat) (hlo : (timerPhase s).beeps ≤ n) (hhi : n < (timerPhase s).beeps + k) :
        beepOk (timerPhase s) n = true := by
      rw [beepOk_timerPhase]
      exact hok n (by omega) (by omega)
    obtain ⟨hzero, hcount, hkept⟩ := ih (timerPhase s) (by omega) hok'
    rw [Function.iterate_succ_apply]
    exact ⟨hzero, by omega, hkept.trans hrun⟩

end Sys2Proof.Proofs

/-! SUPPORT and PROOFS. Control transfer: an instruction's mask and match, the pc after a skip or a jump, the slot that a
return reads and a call writes, and the statements of 41_control_flow.md that follow. -/

namespace Sys2Proof.Proofs

open Sys2Proof.Machine Sys2Proof.Safety Sys2Proof.Laws

/-! ### Encodings -/

/-- Every instruction's word carries the mask of its format and its match in R86, and decodes to it. -/
theorem encodesAs_row (i : Instr) : EncodesAs i (RowMatch.maskOf i.format) (RowMatch.matchOf i) :=
  ⟨encode_matches i, decodeWord_encode i⟩

theorem wordA_toNat (op : Nibble) (nnn : Addr12) : (wordA op nnn).toNat = 4096 * op.toNat + nnn.toNat := by
  rw [wordA, BitVec.toNat_append, ← Nat.shiftLeft_add_eq_or_of_lt nnn.isLt, Nat.shiftLeft_eq, Nat.mul_comm]

theorem encode_call_eq_ofNat (nnn : Addr12) : encode (.call nnn) = BitVec.ofNat 16 (0x2000 + nnn.toNat) := by
  have hlt := nnn.isLt
  apply BitVec.eq_of_toNat_eq
  rw [encode, wordA_toNat, BitVec.toNat_ofNat, Nat.mod_eq_of_lt (by omega)]
  rfl

/-- R87: in families 5 and 9 the last digit of an instruction is 0. -/
theorem decodeWord_wordXYN_eq_none (x y : Reg) {n : Nibble} (hn : n ≠ 0) :
    decodeWord (wordXYN 0x5 x y n) = none ∧ decodeWord (wordXYN 0x9 x y n) = none := by
  have hlast (op : Nibble) : fieldN (wordXYN op x y n) ≠ 0x0 := by rwa [fieldN_wordXYN]
  have five : UnknownByFamily (wordXYN 0x5 x y n) := .inr (.inl ⟨fieldOp_wordXYN .., hlast 0x5⟩)
  have nine : UnknownByFamily (wordXYN 0x9 x y n) := .inr (.inr (.inr (.inl ⟨fieldOp_wordXYN .., hlast 0x9⟩)))
  exact ⟨(unknownWordsAreThoseOfTheFamilies _).mpr five, (unknownWordsAreThoseOfTheFamilies _).mpr nine⟩

/-! ### Jumps -/

/-- Settles O16: a write of pc. -/
theorem jpSetsPc : Obligations.JpSetsPc := fun nnn s =>
  ⟨encodesAs_row (.jp nnn), _, rfl, zextAddr_toNat nnn, (setPc_writes s _).onlyChanges⟩

/-- The sum of BNNN is at most 4350, so it does not wrap at 16 bits. -/
theorem zextAddr_add_zextByte_toNat (nnn : Addr12) (b : Byte) :
    (zextAddr nnn + zextByte b).toNat = nnn.toNat + b.toNat := by
  have hnnn := nnn.isLt
  have hb := b.isLt
  rw [BitVec.toNat_add, zextAddr_toNat, zextByte_toNat]
  omega

/-- Settles O18: a write of pc, of a sum that does not wrap. -/
theorem jpV0AddsV0 : Obligations.JpV0AddsV0 := fun nnn s =>
  ⟨encodesAs_row (.jpV0 nnn), _, rfl, zextAddr_add_zextByte_toNat nnn (readV s 0), (setPc_writes s _).onlyChanges⟩

/-! ### Skips (R109) -/

theorem skipIf_beq_pc (s : State) (a b : Byte) : (skipIf s (a == b)).pc = if a = b then s.pc + 2 else s.pc := by
  simp only [skipIf_pc, beq_iff_eq]

theorem skipIf_bne_pc (s : State) (a b : Byte) : (skipIf s (a != b)).pc = if a = b then s.pc else s.pc + 2 := by
  simp only [skipIf_pc, bne_iff_ne, ne_eq, ite_not]

/-- Settles O19: both instructions are a skip, on the comparison and on its negation. -/
theorem skipsOnConstant : Obligations.SkipsOnConstant := fun x nn s =>
  ⟨encodesAs_row (.seVxNn x nn), encodesAs_row (.sneVxNn x nn),
    ⟨_, rfl, skipIf_beq_pc s _ _, (skipIf_writes s _).onlyChanges⟩,
    ⟨_, rfl, skipIf_bne_pc s _ _, (skipIf_writes s _).onlyChanges⟩⟩

/-- Settles O20: the same two skips between registers; a last digit other than 0 is one of R87's families. -/
theorem skipsOnRegister : Obligations.SkipsOnRegister := fun x y s =>
  ⟨encodesAs_row (.seVxVy x y), encodesAs_row (.sneVxVy x y),
    ⟨_, rfl, skipIf_beq_pc s _ _, (skipIf_writes s _).onlyChanges⟩,
    ⟨_, rfl, skipIf_bne_pc s _ _, (skipIf_writes s _).onlyChanges⟩,
    fun _ hn => decodeWord_wordXYN_eq_none x y hn⟩

/-! ### Return and call (R26, R27) -/

section
variable {s : State} {k : Nat}

theorem exec_ret_of_sp_succ {target : Word} (hsp : s.sp.val = k + 1) (hslot : s.stack[k]? = some target) :
    exec .ret s = .next (setPc { s with sp := ⟨k, by omega⟩ } target) := by
  rcases exec_ret_cases s with ⟨_, e⟩ | ⟨h0, -⟩
  · obtain ⟨_, rfl⟩ := Vector.getElem?_eq_some_iff.mp hslot
    simp only [e, hsp, Nat.add_sub_cancel]
  · omega

theorem exec_ret_of_sp_zero (hsp : s.sp.val = 0) :
    exec .ret s = .next (raiseFault s .stackUnderflow 0x00EE) := by
  rcases exec_ret_cases s with ⟨hpos, -⟩ | ⟨-, e⟩
  · omega
  · exact e

theorem exec_call_of_sp_lt (nnn : Addr12) (h : s.sp.val < 16) : exec (.call nnn) s =
    .next (setPc { s with stack := s.stack.set s.sp.val s.pc h, sp := ⟨s.sp.val + 1, by omega⟩ } (zextAddr nnn)) := by
  rcases exec_call_cases nnn s with ⟨_, e⟩ | ⟨hfull, -⟩
  · exact e
  · omega

theorem exec_call_of_sp_full (nnn : Addr12) (hsp : s.sp.val = 16) : exec (.call nnn) s =
    .next (raiseFault s .stackOverflow (BitVec.ofNat 16 (0x2000 + nnn.toNat))) := by
  rcases exec_call_cases nnn s with ⟨h, -⟩ | ⟨-, e⟩
  · omega
  · rw [e, encode_call_eq_ofNat]

end

/-- Settles O15, by the two cases of a pop: sp is above 0, or 0. -/
theorem retPopsIntoPc : Obligations.RetPopsIntoPc := by
  refine ⟨encodesAs_row .ret, fun s => ⟨fun _ _ hsp hslot => ?_, exec_ret_of_sp_zero⟩⟩
  refine ⟨_, exec_ret_of_sp_succ hsp hslot, rfl, rfl, ?_⟩
  exact (((sp_writes s _).comp (setPc_writes _ _)).mono (by decide)).onlyChanges

/-- Settles O17, by the two cases of a push: sp is below 16, or 16. -/
theorem callPushesAdvancedPc : Obligations.CallPushesAdvancedPc := by
  refine fun nnn s => ⟨encodesAs_row (.call nnn), ?push, exec_call_of_sp_full nnn⟩
  rintro k rfl hlt
  refine ⟨_, exec_call_of_sp_lt nnn hlt, ?slot, fun j hj => ?others, rfl, zextAddr_toNat nnn, ?frame⟩
  case slot => exact Vector.getElem?_set_self hlt
  case others => exact Vector.getElem?_set_ne hlt hj.symm
  case frame => exact (((stack_sp_writes s _ _).comp (setPc_writes _ _)).mono (by decide)).onlyChanges

end Sys2Proof.Proofs

/-! SUPPORT and PROOFS. Load, arithmetic, logic, shifts and random: what the shared forms of 42_alu.md leave in each register,
the flags as numbers, and the statements of 42_alu.md. -/

namespace Sys2Proof.Proofs

open Sys2Proof.Machine Sys2Proof.Safety

/-! ### A register write and a masked draw -/

theorem setV_regsExcept (s : State) (x : Reg) (b : Byte) : RegsExcept [x] s (setV s x b) := fun _ hz =>
  readV_setV_other s b (List.ne_of_not_mem_cons hz)

/-- Settles O21: a write of the constant. -/
theorem ldVxNnLoadsConstant : Obligations.LdVxNnLoadsConstant := fun x nn s =>
  ⟨encodesAs_row (.ldVxNn x nn), _, rfl, readV_setV_self s x nn, setV_regsExcept s x _, (setV_writes s x _).onlyChanges⟩

/-- Settles O22: a write of the sum, which wraps as bytes do. -/
theorem addVxNnWrapsWithoutFlag : Obligations.AddVxNnWrapsWithoutFlag := fun x nn s =>
  ⟨encodesAs_row (.addVxNn x nn), _, rfl, by rw [readV_setV_self, BitVec.toNat_add], setV_regsExcept s x _,
    (setV_writes s x _).onlyChanges⟩

/-- Settles O23: a write of Vy. -/
theorem ldVxVyCopies : Obligations.LdVxVyCopies := fun x y s =>
  ⟨encodesAs_row (.ldVxVy x y), _, rfl, readV_setV_self s x _, setV_regsExcept s x _, (setV_writes s x _).onlyChanges⟩

/-- Settles O24: each is a write of Vx alone, of a result that is read bit by bit. -/
theorem logicIsBitwiseWithoutFlag : Obligations.LogicIsBitwiseWithoutFlag := by
  refine fun x y s => ⟨encodesAs_row (.or x y), encodesAs_row (.and x y), encodesAs_row (.xor x y),
    ⟨_, rfl, fun k _ => ?or, setV_regsExcept s x _, (setV_writes s x _).onlyChanges⟩,
    ⟨_, rfl, fun k _ => ?and, setV_regsExcept s x _, (setV_writes s x _).onlyChanges⟩,
    ⟨_, rfl, fun k _ => ?xor, setV_regsExcept s x _, (setV_writes s x _).onlyChanges⟩⟩
  case or => rw [readV_setV_self, BitVec.getLsbD_or]
  case and => rw [readV_setV_self, BitVec.getLsbD_and]
  case xor => rw [readV_setV_self, BitVec.getLsbD_xor]

/-- Settles O28: the draw counts and the write masks; no property of the drawn byte is used. -/
theorem rndMasksADrawnByte : Obligations.RndMasksADrawnByte := by
  refine fun x nn s => ⟨encodesAs_row (.rnd x nn), _, rfl, readV_setV_self _ x _, rfl, fun k hk => ?bits, ?bound,
    setV_regsExcept _ x _, ?frame⟩
  case bits => rw [readV_setV_self, BitVec.getLsbD_and, hk, Bool.and_false]
  case bound =>
    rw [readV_setV_self, BitVec.toNat_and]
    exact Nat.and_le_right
  case frame => exact (((drawRandom_writes s).comp (setV_writes _ x _)).mono (by simp)).onlyChanges

/-! ### Flags (R21) -/

theorem flagByte_carryOut (a b : Byte) : flagByte (carryOut a b) = if 256 ≤ a.toNat + b.toNat then 1 else 0 := by
  simp only [flagByte, carryOut, decide_eq_true_eq]

theorem flagByte_notBorrow (a b : Byte) : flagByte (notBorrow a b) = if a.toNat < b.toNat then 0 else 1 := by
  simp only [flagByte, notBorrow, Bool.not_eq_true', decide_eq_false_iff_not, ite_not]

theorem flagByte_toNat (f : Bool) : (flagByte f).toNat = f.toNat := by cases f <;> rfl

theorem lowBit_toNat (b : Byte) : (lowBit b).toNat = b.toNat % 2 := by
  rw [lowBit, BitVec.getLsbD, Nat.toNat_testBit, Nat.pow_zero, Nat.div_one]

theorem highBit_toNat (b : Byte) : (highBit b).toNat = b.toNat / 128 := by
  have := b.isLt
  rw [highBit, BitVec.getLsbD, Nat.toNat_testBit]
  omega

/-! ### A result, then a flag -/

section
variable (s : State) (x : Reg) (b : Byte) (f : Bool)

theorem readV_setResultThenFlag_vf : readV (setResultThenFlag s x b f) vf = flagByte f := readV_setV_self _ vf _

theorem readV_setResultThenFlag_result {x : Reg} (hx : x ≠ vf) : readV (setResultThenFlag s x b f) x = b :=
  (readV_setV_other _ _ hx).trans (readV_setV_self s x b)

theorem setResultThenFlag_regsExcept : RegsExcept [x, vf] s (setResultThenFlag s x b f) := by
  intro z hz
  obtain ⟨hx, hvf⟩ : z ≠ x ∧ z ≠ vf := by simpa using hz
  exact readV_setResultThenFlag_other s b f hx hvf

end

/-- Settles O25: the sum is written before the carry, which is what VF keeps. -/
theorem addVxVyCarries : Obligations.AddVxVyCarries := fun x y s =>
  ⟨encodesAs_row (.addVxVy x y), _, rfl,
    fun hx => by rw [readV_setResultThenFlag_result s _ _ hx, BitVec.toNat_add],
    (readV_setResultThenFlag_vf s x _ _).trans (flagByte_carryOut _ _),
    setResultThenFlag_regsExcept s x _ _, (setResultThenFlag_writes s x _ _).onlyChanges⟩

theorem sub_toNat_emod (a b : Byte) : ((a - b).toNat : Int) = (a.toNat - b.toNat : Int) % 256 := by
  have := b.isLt
  rw [BitVec.toNat_sub]
  omega

/-- R147 and R149 alike: a difference is written, and then its not-borrow. -/
theorem setResultThenFlag_difference {s t : State} {x : Reg} {a b : Byte}
    (ht : t = setResultThenFlag s x (a - b) (notBorrow a b)) :
    (x ≠ vf → ((readV t x).toNat : Int) = (a.toNat - b.toNat : Int) % 256) ∧
      readV t vf = (if a.toNat < b.toNat then 0 else 1) ∧ RegsExcept [x, vf] s t ∧ OnlyChanges [.v] s t := by
  subst ht
  refine ⟨fun hx => ?result, ?flag, setResultThenFlag_regsExcept s x _ _, (setResultThenFlag_writes s x _ _).onlyChanges⟩
  case result => rw [readV_setResultThenFlag_result s _ _ hx, sub_toNat_emod]
  case flag => rw [readV_setResultThenFlag_vf, flagByte_notBorrow]

/-- Settles O26: the two subtractions differ in the order of their operands. -/
theorem subAndSubnBorrow : Obligations.SubAndSubnBorrow := fun x y _ =>
  ⟨encodesAs_row (.sub x y), encodesAs_row (.subn x y),
    ⟨_, rfl, setResultThenFlag_difference rfl⟩, ⟨_, rfl, setResultThenFlag_difference rfl⟩⟩

/-! ### Shifts in place -/

section
variable (s : State) (x y : Reg) (f : Bool) (shift : Byte → Byte)

/-- R153: Vy is read after the flag was written, so with y = F it is the flag. -/
theorem readV_shiftInPlace_x :
    readV (shiftInPlace s x y f shift) x = shift (if y = vf then flagByte f else readV s y) := by
  rw [shiftInPlace, readV_setV_self, readV_setV_self, readV_setV]

/-- The last write copies Vy, so Vx and Vy end the same. -/
theorem readV_shiftInPlace_x_eq_y :
    readV (shiftInPlace s x y f shift) x = readV (shiftInPlace s x y f shift) y := by
  simp only [shiftInPlace, readV_setV _ x, if_true, ite_self]

theorem readV_shiftInPlace_y :
    readV (shiftInPlace s x y f shift) y = shift (if y = vf then flagByte f else readV s y) :=
  (readV_shiftInPlace_x_eq_y s x y f shift).symm.trans (readV_shiftInPlace_x s x y f shift)

variable {y} in
theorem readV_shiftInPlace_y_of_ne (hy : y ≠ vf) : readV (shiftInPlace s x y f shift) y = shift (readV s y) := by
  rw [readV_shiftInPlace_y, if_neg hy]

theorem readV_shiftInPlace_vf_of_y : readV (shiftInPlace s x vf f shift) vf = shift (flagByte f) := by
  rw [readV_shiftInPlace_y, if_pos rfl]

variable {x y} in
theorem readV_shiftInPlace_vf (hx : x ≠ vf) (hy : y ≠ vf) : readV (shiftInPlace s x y f shift) vf = flagByte f := by
  rw [shiftInPlace, readV_setV_other _ _ hx.symm, readV_setV_other _ _ hy.symm, readV_setV_self]

theorem shiftInPlace_regsExcept : RegsExcept [x, y, vf] s (shiftInPlace s x y f shift) := by
  intro z hz
  obtain ⟨hx, hy, hvf⟩ : z ≠ x ∧ z ≠ y ∧ z ≠ vf := by simpa using hz
  exact readV_shiftInPlace_other s f shift hx hy hvf

end

theorem shr_one_toNat (b : Byte) : (b >>> 1).toNat = b.toNat / 2 := by
  rw [BitVec.toNat_ushiftRight, Nat.shiftRight_eq_div_pow, Nat.pow_one]

theorem shl_one_toNat (b : Byte) : (b <<< 1).toNat = 2 * b.toNat % 256 := by
  rw [BitVec.toNat_shiftLeft, Nat.shiftLeft_eq, Nat.pow_one, Nat.mul_comm]

/-- A flag is bit 0, which a right shift moves out. -/
theorem flagByte_shr_one (f : Bool) : flagByte f >>> 1 = 0 := by cases f <;> rfl

/-- A flag moves to bit 1. -/
theorem flagByte_shl_one_toNat (f : Bool) : (flagByte f <<< 1).toNat = 2 * f.toNat := by cases f <;> rfl

/-- Settles O27: in each shift, the cases y other than F, where Vy is what is shifted, and y = F, where the flag is. -/
theorem shiftsMoveVyIntoBoth : Obligations.ShiftsMoveVyIntoBoth := by
  refine fun x y s => ⟨encodesAs_row (.shr x y), encodesAs_row (.shl x y),
    ⟨_, rfl, fun hy => ⟨?shrY, readV_shiftInPlace_x_eq_y s x y _ _, fun hx => ?shrFlag⟩, ?shrOfFlag,
      shiftInPlace_regsExcept s x y _ _, (shiftInPlace_writes s x y _ _).onlyChanges⟩,
    ⟨_, rfl, fun hy => ⟨?shlY, readV_shiftInPlace_x_eq_y s x y _ _, fun hx => ?shlFlag⟩, ?shlOfFlag,
      shiftInPlace_regsExcept s x y _ _, (shiftInPlace_writes s x y _ _).onlyChanges⟩⟩
  case shrY => rw [readV_shiftInPlace_y_of_ne s x _ _ hy, shr_one_toNat]
  case shrFlag => rw [readV_shiftInPlace_vf s _ _ hx hy, flagByte_toNat, lowBit_toNat]
  case shrOfFlag =>
    rintro rfl
    rw [readV_shiftInPlace_x_eq_y, readV_shiftInPlace_vf_of_y, flagByte_shr_one]
    exact ⟨rfl, rfl⟩
  case shlY => rw [readV_shiftInPlace_y_of_ne s x _ _ hy, shl_one_toNat]
  case shlFlag => rw [readV_shiftInPlace_vf s _ _ hx hy, flagByte_toNat, highBit_toNat]
  case shlOfFlag =>
    rintro rfl
    refine ⟨?_, readV_shiftInPlace_x_eq_y s x vf _ _⟩
    rw [readV_shiftInPlace_vf_of_y, flagByte_shl_one_toNat, highBit_toNat]

end Sys2Proof.Proofs

/-! SUPPORT and PROOFS. Address register and memory: sums and digits as numbers, the advance of I, the registers a load
fills, and the statements of 43_index_memory.md. -/

namespace Sys2Proof.Proofs

open Sys2Proof.Machine Sys2Proof.Safety

/-! ### Writes of I (R160, R161, R162) -/

/-- Settles O29: a write of I. -/
theorem ldISetsAddress : Obligations.LdISetsAddress := fun nnn s =>
  ⟨encodesAs_row (.ldINnn nnn), _, rfl, zextAddr_toNat nnn, (setI_writes s _).onlyChanges⟩

/-- A word and a byte are added as words are, modulo 65536. -/
theorem add_zextByte_toNat (w : Word) (b : Byte) : (w + zextByte b).toNat = (w.toNat + b.toNat) % 65536 := by
  rw [BitVec.toNat_add, zextByte_toNat]

/-- Settles O30: two writes of I, of a sum that wraps and of a product that does not. -/
theorem addIAndGlyphAddress : Obligations.AddIAndGlyphAddress := fun x s =>
  ⟨encodesAs_row (.addIVx x), encodesAs_row (.ldFVx x),
    ⟨_, rfl, add_zextByte_toNat s.i (readV s x), (setI_writes s _).onlyChanges⟩,
    ⟨_, rfl, glyphAddress_toNat (readV s x), (setI_writes s _).onlyChanges⟩⟩

/-! ### The decimal digits (R163) -/

theorem ofNat_digit_toNat {d : Nat} (hd : d < 10) : (BitVec.ofNat 8 d).toNat = d := by
  rw [BitVec.toNat_ofNat, Nat.mod_eq_of_lt (by omega)]

theorem bcdDigits_toNat (b : Byte) : ∃ h m o, bcdDigits b = [h, m, o] ∧
    h.toNat = b.toNat / 100 ∧ m.toNat = b.toNat / 10 % 10 ∧ o.toNat = b.toNat % 10 := by
  have hb := b.isLt
  exact ⟨_, _, _, rfl, ofNat_digit_toNat (by omega), ofNat_digit_toNat (by omega), ofNat_digit_toNat (by omega)⟩

/-! ### The advance of I and the registers loaded (R164, R165) -/

section
variable {s : State} {x z : Reg}

/-- Where the transfer fits memory, I + X does not wrap: X is 0, or I + X is at most 4096. -/
theorem advanceI_i_toNat {t : State} (hi : t.i = s.i) (h : x.toNat = 0 ∨ baseAddress s + x.toNat ≤ Config.memSize) :
    (advanceI t x).i.toNat = s.i.toNat + x.toNat := by
  have hx := x.isLt
  have hs := s.i.isLt
  simp only [baseAddress, Config.memSize] at h
  rw [advanceI, setI_i, hi, BitVec.toNat_add, regCount, BitVec.toNat_ofNat]
  omega

/-- A load asks for no more bytes than there are registers. -/
theorem readMany_length_le (font : Vector Byte 80) (mem : List Host.Cell) (a : Nat) (x : Reg) :
    (Memory.readMany font mem a x.toNat).length ≤ 16 :=
  (Memory.readMany_length ..).trans_le (Nat.le_of_lt x.isLt)

/-- The first `x` registers hold the bytes that were read for them. -/
theorem readV_setRegs_readMany (a : Nat) (hz : z.toNat < x.toNat) :
    readV (setRegs s 0 (Memory.readMany s.font s.mem a x.toNat)) z = Memory.read s.font s.mem (a + z.toNat) := by
  have hlen : 0 + (Memory.readMany s.font s.mem a x.toNat).length ≤ 16 :=
    (Nat.zero_add _).trans_le (readMany_length_le ..)
  rw [readV_setRegs s 0 _ hlen, if_pos (Nat.zero_le _), Nat.sub_zero, Memory.readMany_get _ _ hz, Option.getD_some]

/-- The registers from `x` on are not loaded. -/
theorem readV_setRegs_readMany_beyond (a : Nat) (hz : x.toNat ≤ z.toNat) :
    readV (setRegs s 0 (Memory.readMany s.font s.mem a x.toNat)) z = readV s z :=
  readV_setRegs_beyond s (readMany_length_le ..) (by rwa [Memory.readMany_length])

end

/-! ### The statements about FX33, FX55 and FX65 -/

/-- Settles O31, by the two cases of the store: the bytes written are the digits, or the last lies beyond memory. -/
theorem ldBStoresDecimalDigits : Obligations.LdBStoresDecimalDigits := by
  refine fun x s => ⟨encodesAs_row (.ldBVx x), ?_⟩
  rcases exec_ldBVx_cases x s with ⟨hfit, he⟩ | ⟨hout, he⟩
  · obtain ⟨h, m, o, hdigits, hh, hm, ho⟩ := bcdDigits_toNat (readV s x)
    rw [hdigits] at he
    refine ⟨fun _ => ⟨_, h, m, o, he, ?hundreds, ?tens, ?ones, hh, hm, ho, ?sum, writeMany_memExcept s _ [h, m, o],
      (mem_writes s _).onlyChanges⟩, fun hout => absurd hfit (Nat.not_lt.mpr hout)⟩
    case hundreds => exact readByte_writeMany_inside s (k := 0) hfit rfl
    case tens => exact readByte_writeMany_inside s (k := 1) hfit rfl
    case ones => exact readByte_writeMany_inside s (k := 2) hfit rfl
    case sum => omega
  · exact ⟨fun hfit => absurd hfit (Nat.not_lt.mpr (Nat.le_of_lt_succ hout)), fun _ => he⟩

/-- Settles O32, by the two cases of the store: the registers below X are written (none for X = 0), or the last of their
bytes lies beyond memory. -/
theorem ldMemStoresFirstRegisters : Obligations.LdMemStoresFirstRegisters := by
  refine fun x s => ⟨encodesAs_row (.ldMemVx x), ?_⟩
  rcases exec_ldMemVx_cases x s with ⟨hfit, he⟩ | ⟨h0, hout, he⟩
  · refine ⟨fun _ => ⟨_, he, fun z hz => ?stored, advanceI_i_toNat rfl hfit, ?frame,
      ((mem_writes s _).comp (advanceI_writes _ x)).onlyChanges⟩,
      fun h0 hout => absurd hfit (not_or_intro h0 (Nat.not_le.mpr hout))⟩
    case stored => exact readByte_firstRegs_stored s (hfit.resolve_left (Nat.ne_zero_of_lt hz)) hz rfl
    case frame => exact firstRegs_length s x ▸ writeMany_memExcept s (baseAddress s) (firstRegs s x)
  · exact ⟨fun hfit => absurd hfit (not_or_intro h0 (Nat.not_le.mpr hout)), fun _ _ => he⟩

/-- Settles O33, by the two cases of the load: the registers below X are filled (none for X = 0), or the last of their
bytes lies beyond memory. -/
theorem ldVxMemLoadsFirstRegisters : Obligations.LdVxMemLoadsFirstRegisters := by
  refine fun x s => ⟨encodesAs_row (.ldVxMem x), ?_⟩
  rcases exec_ldVxMem_cases x s with ⟨hfit, he⟩ | ⟨h0, hout, he⟩
  · refine ⟨fun _ => ⟨_, he, fun z hz => ?loaded, fun _ hz => readV_setRegs_readMany_beyond _ hz,
      advanceI_i_toNat (setRegs_i s _ _) hfit, ((setRegs_writes s _ _).comp (advanceI_writes _ x)).onlyChanges⟩,
      fun h0 hout => absurd hfit (not_or_intro h0 (Nat.not_le.mpr hout))⟩
    case loaded =>
      have hbase : baseAddress s + x.toNat ≤ Config.memSize := hfit.resolve_left (Nat.ne_zero_of_lt hz)
      have hin : baseAddress s + z.toNat < Config.memSize := by omega
      exact readByte_eq_some.mpr ⟨hin, (readV_setRegs_readMany _ hz).symm⟩
  · exact ⟨fun hfit => absurd hfit (not_or_intro h0 (Nat.not_le.mpr hout)), fun _ _ => he⟩

end Sys2Proof.Proofs

/-! SUPPORT and PROOFS. Display: the two answers to a Render, the sprite as the bytes that memory holds at I, the display
and VF after a draw, and the statements of 44_display.md. -/

namespace Sys2Proof.Proofs

open Sys2Proof.Machine Sys2Proof.Safety

/-! ### One Render (R184) -/

theorem emitRender_of_ok {u : State} (h : renderOk u u.renders = true) :
    emitRender u = { u with renders := u.renders + 1 } :=
  if_pos h

theorem emitRender_of_fail {u : State} (h : renderOk u u.renders = false) :
    emitRender u = raiseFault { u with renders := u.renders + 1 } .rendererFault 0 :=
  if_neg ((Bool.not_eq_true _).mpr h)

theorem exec_cls_of_ok {s : State} (hok : renderOk s s.renders = true) :
    exec .cls s = .next { s with disp := clearedDisplay, renders := s.renders + 1 } :=
  congrArg _ (emitRender_of_ok (u := { s with disp := clearedDisplay }) hok)

theorem exec_cls_of_fail {s : State} (hfail : renderOk s s.renders = false) : exec .cls s =
    .next (raiseFault { s with disp := clearedDisplay, renders := s.renders + 1 } .rendererFault 0) :=
  congrArg _ (emitRender_of_fail (u := { s with disp := clearedDisplay }) hfail)

/-- Settles O35: both answers end over the cleared display, which an answer of fail then faults over. -/
theorem clsClearsAndNotifies : Obligations.ClsClearsAndNotifies :=
  ⟨encodesAs_row .cls, fun s => ⟨{ s with disp := clearedDisplay, renders := s.renders + 1 }, pixel_clearedDisplay, rfl,
    ((disp_writes s clearedDisplay).comp (renders_writes _ (s.renders + 1))).onlyChanges,
    exec_cls_of_ok, exec_cls_of_fail⟩⟩

/-! ### The sprite (R181) -/

/-- The `n` sprite bytes at I (R183). -/
def spriteAt (s : State) (n : Nibble) : List Byte := Memory.readMany s.font s.mem (baseAddress s) n.toNat

/-- R59, R60: the sprite lies inside memory; one of no bytes asks for none. -/
def SpriteFits (s : State) (n : Nibble) : Prop := n.toNat = 0 ∨ baseAddress s + n.toNat ≤ Config.memSize

/-- A nibble counts fewer rows than the display has. -/
theorem spriteAt_length_lt (s : State) (n : Nibble) : (spriteAt s n).length < 32 := by
  have := n.isLt
  rw [spriteAt, Memory.readMany_length]
  omega

theorem spriteAt_get_iff {s : State} {n : Nibble} (hfit : SpriteFits s n) {row : Nat} {b : Byte} :
    (spriteAt s n)[row]? = some b ↔ row < n.toNat ∧ readByte s (baseAddress s + row) = some b := by
  by_cases hrow : row < n.toNat
  · have hin : baseAddress s + row < Config.memSize := by
      have := hfit.resolve_left (Nat.ne_zero_of_lt hrow)
      omega
    rw [spriteAt, Memory.readMany_get _ _ hrow, readByte, if_pos hin, and_iff_right hrow]
  · have hlen : (spriteAt s n).length ≤ row := by
      rw [spriteAt, Memory.readMany_length]
      exact Nat.le_of_not_lt hrow
    simp [List.getElem?_eq_none hlen, hrow]

theorem rowHits_iff {x r r' c' : Nat} {b : Byte} : rowHits x r [0, 1, 2, 3, 4, 5, 6, 7] b r' c' = true ↔
    ∃ col, col < 8 ∧ r % 32 = r' ∧ (x + col) % 64 = c' ∧ b.getLsbD (7 - col) = true := by
  have hcols : [0, 1, 2, 3, 4, 5, 6, 7] = List.range 8 := rfl
  simp only [rowHits, spriteBit, hcols, List.any_eq_true, List.mem_range, Bool.and_eq_true, decide_eq_true_eq, and_assoc]

theorem spriteHits_iff {x r r' c' : Nat} {bs : List Byte} : spriteHits x r bs r' c' = true ↔
    ∃ row b, bs[row]? = some b ∧ rowHits x (r + row) [0, 1, 2, 3, 4, 5, 6, 7] b r' c' = true := by
  induction bs generalizing r with
  | nil => simp [spriteHits]
  | cons b bs ih =>
    rw [spriteHits, Bool.or_eq_true, ih]
    refine Iff.trans ?_ Nat.or_exists_add_one
    simp [Nat.add_assoc, Nat.add_comm 1]

/-- The pixels that the sprite at I sets, as the statements name them, are those that drawing it turns. -/
theorem spriteHits_spriteAt_iff {s : State} {n : Nibble} (hfit : SpriteFits s n) {x y r c : Nat} :
    spriteHits x y (spriteAt s n) r c = true ↔ SpriteSets s n.toNat x y r c := by
  simp only [spriteHits_iff, rowHits_iff, spriteAt_get_iff hfit, SpriteSets]
  constructor
  · rintro ⟨row, b, ⟨hrow, hb⟩, col, hcol, hr, hc, hbit⟩
    exact ⟨row, col, b, hrow, hcol, hr, hc, hb, hbit⟩
  · rintro ⟨row, col, b, hrow, hcol, hr, hc, hb, hbit⟩
    exact ⟨row, b, ⟨hrow, hb⟩, col, hcol, hr, hc, hbit⟩

/-- R183: drawing is an XOR, so a second draw undoes the first. -/
theorem drawSprite_twice (d : Display) (x y : Nat) {bs : List Byte} (hl : bs.length < 32) :
    (drawSprite (drawSprite d bs x y).1 bs x y).1 = d :=
  display_ext fun r c hr hc => by
    rw [pixel_drawSprite _ _ _ hl hr hc, pixel_drawSprite _ _ _ hl hr hc, Bool.xor_assoc, Bool.xor_self, Bool.xor_false]

/-! ### The display and VF after a draw -/

theorem flagByte_eq_zero_or_one (f : Bool) : flagByte f = 0 ∨ flagByte f = 1 := by cases f <;> decide

theorem flagByte_eq_one_iff (f : Bool) : flagByte f = 1 ↔ f = true := by cases f <;> decide

section
variable (s : State) (x y : Reg) {bs : List Byte}

theorem pixel_drawn (hl : bs.length < 32) {r c : Nat} (hr : r < 32) (hc : c < 64) :
    pixel (drawn s x y bs).disp r c =
      (pixel s.disp r c ^^ spriteHits (readV s x).toNat (readV s y).toNat bs r c) :=
  pixel_drawSprite s.disp _ _ hl hr hc

theorem readV_drawn_vf :
    readV (drawn s x y bs) vf = flagByte (drawSprite s.disp bs (readV s x).toNat (readV s y).toNat).2 :=
  readV_setV_self _ vf _

/-- R183: VF tells whether the draw has unset a pixel that was set. -/
theorem readV_drawn_vf_eq_one_iff (hl : bs.length < 32) : readV (drawn s x y bs) vf = 1 ↔
    ∃ r c, r < 32 ∧ c < 64 ∧ pixel s.disp r c = true ∧ pixel (drawn s x y bs).disp r c = false := by
  rw [readV_drawn_vf, flagByte_eq_one_iff, drawSprite_collision _ _ _ hl]
  refine exists_congr fun r => exists_congr fun c => and_congr_right fun hr => and_congr_right fun hc =>
    and_congr_right fun hset => ?_
  rw [pixel_drawn s x y hl hr hc, hset, Bool.true_xor, Bool.not_eq_false']

end

/-! ### DXYN by its two cases -/

section
variable {x y : Reg} {n : Nibble} {s t : State}

theorem exec_drw_of_fits (hfit : SpriteFits s n) :
    exec (.drw x y n) s = .next (emitRender (drawn s x y (spriteAt s n))) := by
  rcases exec_drw_cases x y n s with ⟨-, e⟩ | ⟨h0, hout, -⟩
  · exact e
  · exact absurd hfit (not_or_intro h0 (Nat.not_le.mpr hout))

theorem exec_drw_of_not_fits (hout : ¬ SpriteFits s n) : exec (.drw x y n) s = .next (raiseDataAccess s) := by
  rcases exec_drw_cases x y n s with ⟨hfit, -⟩ | ⟨-, -, e⟩
  · exact absurd hfit hout
  · exact e

theorem exec_drw_of_ok (hfit : SpriteFits s n) (hok : renderOk s s.renders = true) :
    exec (.drw x y n) s = .next { drawn s x y (spriteAt s n) with renders := s.renders + 1 } := by
  rw [exec_drw_of_fits hfit, emitRender_of_ok (u := drawn s x y _) hok]
  rfl

theorem exec_drw_of_fail (hfit : SpriteFits s n) (hfail : renderOk s s.renders = false) : exec (.drw x y n) s =
    .next (raiseFault { drawn s x y (spriteAt s n) with renders := s.renders + 1 } .rendererFault 0) := by
  rw [exec_drw_of_fits hfit, emitRender_of_fail (u := drawn s x y _) hfail]
  rfl

theorem exec_drw_disp_of_fits (hfit : SpriteFits s n) (h : exec (.drw x y n) s = .next t) :
    t.disp = (drawSprite s.disp (spriteAt s n) (readV s x).toNat (readV s y).toNat).1 := by
  cases h.symm.trans (exec_drw_of_fits hfit)
  exact emitRender_disp _

theorem exec_drw_disp_of_not_fits (hout : ¬ SpriteFits s n) (h : exec (.drw x y n) s = .next t) : t.disp = s.disp := by
  cases h.symm.trans (exec_drw_of_not_fits hout)
  rfl

/-- R183: a draw leaves I and memory, so a second one finds the same sprite. -/
theorem exec_drw_keeps_sprite (h : exec (.drw x y n) s = .next t) :
    spriteAt t n = spriteAt s n ∧ (SpriteFits t n ↔ SpriteFits s n) := by
  obtain ⟨hkept, hmem⟩ := exec_writes h
  have hi : t.i = s.i := hkept .i (by simp [mayChange])
  have hfont : t.font = s.font := hkept .font (by simp [mayChange])
  simp only [spriteAt, SpriteFits, baseAddress, hi, hfont, hmem (by simp [mayChange]), and_self]

end

/-- Settles O36: the pixels by `pixel_drawn`, VF by `readV_drawn_vf_eq_one_iff`, for the sprite at I. -/
theorem drwXorsTheSprite : Obligations.DrwXorsTheSprite := by
  refine fun x y n s => ⟨encodesAs_row (.drw x y n), fun (hfit : SpriteFits s n) hok => ?_⟩
  have hl := spriteAt_length_lt s n
  refine ⟨_, exec_drw_of_ok hfit hok, fun r c hr hc => ?pixels, ?flag, readV_drawn_vf_eq_one_iff s x y hl, rfl,
    fun z hz => readV_drawn_other s x y _ (List.ne_of_not_mem_cons hz),
    ((drawn_writes s x y _).comp (renders_writes _ _)).onlyChanges⟩
  case pixels =>
    show pixel (drawn s x y (spriteAt s n)).disp r c = true ↔ _
    rw [pixel_drawn s x y hl hr hc, ← spriteHits_spriteAt_iff hfit, Bool.xor_iff_ne, Ne, Bool.eq_iff_iff]
  case flag =>
    show readV (drawn s x y (spriteAt s n)) vf = 0 ∨ _
    exact readV_drawn_vf s x y ▸ flagByte_eq_zero_or_one _

/-- Settles O37: the sprite beyond memory faults before it is drawn; the two answers differ in the fault alone. -/
theorem drwFaults : Obligations.DrwFaults := fun _ _ _ s =>
  ⟨fun h0 hout => exec_drw_of_not_fits (not_or_intro h0 (Nat.not_le.mpr hout)),
    fun hfit hfail => ⟨_, exec_drw_of_ok (s := { s with renderFails := [] }) hfit rfl, exec_drw_of_fail hfit hfail⟩⟩

/-- Settles O38: both draws XOR one sprite at one place, or both fault with the display as it was. -/
theorem drawingTwiceRestoresTheDisplay : Obligations.DrawingTwiceRestoresTheDisplay := by
  intro x y n s t u hx hy ht hu
  obtain ⟨hsprite, hfits⟩ := exec_drw_keeps_sprite ht
  by_cases hfit : SpriteFits s n
  · have hreg {z : Reg} (hz : z ≠ vf) : readV t z = readV s z :=
      registersAreWrittenOnlyAsNamed (.drw x y n) s t z ht hz
    rw [exec_drw_disp_of_fits (hfits.mpr hfit) hu, exec_drw_disp_of_fits hfit ht, hsprite, hreg hx, hreg hy,
      drawSprite_twice _ _ _ (spriteAt_length_lt s n)]
  · rw [exec_drw_disp_of_not_fits (mt hfits.mp hfit) hu, exec_drw_disp_of_not_fits hfit ht]

end Sys2Proof.Proofs

/-! SUPPORT and PROOFS. Keys and timers: a key skip by the two ranges of Vx, the word of FX0A, what the timer phase makes of a
timer that the step's own instruction read or set, and the statements of 45_keypad_timers.md. -/

namespace Sys2Proof.Proofs

open Sys2Proof.Machine Sys2Proof.Safety

/-! ### Key skips (R190, R191, R196) -/

theorem skipIf_not_pc (s : State) (b : Bool) : (skipIf s (!b)).pc = if b = true then s.pc else s.pc + 2 := by
  cases b <;> rfl

theorem raiseKeyIndex_eq (s : State) (x : Reg) :
    raiseKeyIndex s x = raiseFault s .keyIndexFault (BitVec.ofNat 16 (readV s x).toNat) := by
  rw [raiseKeyIndex, zextByte, BitVec.ofNat_toNat]

section
variable {s : State} {x : Reg}

theorem exec_skp_of_key {b : Bool} (hkey : s.key[(readV s x).toNat]? = some b) :
    exec (.skp x) s = .next (skipIf s b) := by
  obtain ⟨hlt, rfl⟩ := Vector.getElem?_eq_some_iff.mp hkey
  rcases exec_skp_cases x s with ⟨_, e⟩ | ⟨hout, -⟩
  · exact e
  · omega

theorem exec_sknp_of_key {b : Bool} (hkey : s.key[(readV s x).toNat]? = some b) :
    exec (.sknp x) s = .next (skipIf s (!b)) := by
  obtain ⟨hlt, rfl⟩ := Vector.getElem?_eq_some_iff.mp hkey
  rcases exec_sknp_cases x s with ⟨_, e⟩ | ⟨hout, -⟩
  · exact e
  · omega

theorem exec_skp_of_no_key (hout : 16 ≤ (readV s x).toNat) : exec (.skp x) s = .next (raiseKeyIndex s x) := by
  rcases exec_skp_cases x s with ⟨hlt, -⟩ | ⟨-, e⟩
  · omega
  · exact e

theorem exec_sknp_of_no_key (hout : 16 ≤ (readV s x).toNat) : exec (.sknp x) s = .next (raiseKeyIndex s x) := by
  rcases exec_sknp_cases x s with ⟨hlt, -⟩ | ⟨-, e⟩
  · omega
  · exact e

end

/-- Settles O39: where Vx names a key both instructions are a skip, on the key and on its negation; elsewhere both fault. -/
theorem keySkipsReadOneKey : Obligations.KeySkipsReadOneKey := by
  refine fun x s => ⟨encodesAs_row (.skp x), encodesAs_row (.sknp x), fun b hkey => ?named, fun hout => ?beyond⟩
  case named =>
    exact ⟨⟨_, exec_skp_of_key hkey, skipIf_pc s b, (skipIf_writes s _).onlyChanges⟩,
      ⟨_, exec_sknp_of_key hkey, skipIf_not_pc s b, (skipIf_writes s _).onlyChanges⟩⟩
  case beyond =>
    rw [← raiseKeyIndex_eq]
    exact ⟨exec_skp_of_no_key hout, exec_sknp_of_no_key hout⟩

/-! ### The delay timer (R192, R194) -/

/-- The timer phase writes no register. -/
theorem readV_timerPhase (s : State) (x : Reg) : readV (timerPhase s) x = readV s x :=
  (timerPhase_writes s).onlyChanges .v (by decide) x

/-- Settles O40: a write of Vx, which the timer phase then leaves, while it counts DT down. -/
theorem ldVxDtReadsDelayTimer : Obligations.LdVxDtReadsDelayTimer := fun x s =>
  ⟨encodesAs_row (.ldVxDt x), _, rfl, readV_setV_self s x s.dt, setV_regsExcept s x _, (setV_writes s x _).onlyChanges,
    (readV_timerPhase _ x).trans (readV_setV_self s x s.dt), timerPhase_dt _⟩

/-- Settles O41: a write of DT, which the timer phase then counts down. -/
theorem ldDtVxSetsDelayTimer : Obligations.LdDtVxSetsDelayTimer := fun x s =>
  ⟨encodesAs_row (.ldDtVx x), _, rfl, rfl, (setDt_writes s _).onlyChanges, timerPhase_dt _⟩

/-! ### The sound timer (R195) -/

/-- One Beep for a nonzero ST, whatever its answer. -/
theorem timerPhase_beeps_of_st_ne_zero {s : State} (hst : s.st ≠ 0) : (timerPhase s).beeps = s.beeps + 1 := by
  cases hb : beepOk s s.beeps with
  | true => rw [timerPhase_of_beepOk hst hb, setSt_beeps, beeped_beeps]
  | false => rw [timerPhase_of_beepFail hst hb, raiseFault_beeps, beeped_beeps]

/-- Settles O42: a write of ST; the timer phase is then silent or beeps, by whether the new value is 0. -/
theorem ldStVxSetsSoundTimer : Obligations.LdStVxSetsSoundTimer := by
  refine fun x s => ⟨encodesAs_row (.ldStVx x), setSt s (readV s x), rfl, rfl, (setSt_writes s _).onlyChanges,
    fun hzero => ?silent, fun hne => ⟨timerPhase_beeps_of_st_ne_zero hne, fun hok => ?beep⟩⟩
  case silent =>
    rw [timerPhase_of_st_zero (s := setSt s (readV s x)) hzero, tickDelay_st, tickDelay_beeps]
    exact ⟨hzero, rfl⟩
  case beep => exact timerPhase_st_of_beepOk (s := setSt s (readV s x)) hne hok

/-! ### The key wait (R193) -/

theorem wordXK_toNat (op : Nibble) (x : Reg) (nn : Byte) :
    (wordXK op x nn).toNat = 4096 * op.toNat + 256 * x.toNat + nn.toNat := by
  rw [wordXK, BitVec.toNat_append, BitVec.toNat_append, ← Nat.shiftLeft_add_eq_or_of_lt nn.isLt,
    ← Nat.shiftLeft_add_eq_or_of_lt x.isLt, Nat.shiftLeft_eq, Nat.shiftLeft_eq]
  omega

theorem encode_ldVxK_eq_ofNat (x : Reg) : encode (.ldVxK x) = BitVec.ofNat 16 (0xF00A + 256 * x.toNat) := by
  have hx := x.isLt
  apply BitVec.eq_of_toNat_eq
  rw [encode, wordXK_toNat, BitVec.toNat_ofNat, Nat.mod_eq_of_lt (by omega), Nat.add_right_comm]
  rfl

/-- Settles O43: the instruction's effect is to raise the fault, with its own word as info. -/
theorem ldVxKAlwaysFaults : Obligations.LdVxKAlwaysFaults := by
  intro x s
  rw [← encode_ldVxK_eq_ofNat]
  exact ⟨encodesAs_row (.ldVxK x), rfl, (raiseFault_writes s _ _).onlyChanges⟩

end Sys2Proof.Proofs

/-! SUPPORT and PROOFS. Faults and the host: what entering a fault writes, what each of the host's commands does, and
the statements of 60_exceptions.md that follow. -/

namespace Sys2Proof.Proofs

open Sys2Proof.Machine Sys2Proof.Safety

/-! ### Faults (R201 to R203, R210, R211) -/

/-- An effect is an execution's own, with the lifecycle as it was, or a fault with one of the instruction's causes. -/
theorem Effect.fault_cases {i : Instr} {s t : State} (h : Effect i s t) :
    (t.run = s.run ∧ t.fault = s.fault ∧ t.stopReq = s.stopReq) ∨
      (t.run = .faulted ∧ t.fault.cause ∈ mayRaise i ∧ t.stopReq = false) := by
  cases h with
  | done _ hw =>
    have hsame (p : Part) (hp : p ∈ faultParts) : p.same s t := hw.onlyChanges p (not_mem_ownParts hp i)
    exact .inl ⟨hsame .run (by decide), hsame .fault (by decide), hsame .stopReq (by decide)⟩
  | raised u c info _ hc => exact .inr ⟨raiseFault_run u c info, hc, raiseFault_stopReq u c info⟩

/-- Settles O47: an execution has its instruction's effect. -/
theorem instructionsRaiseOnlyTheirOwnFaults : Obligations.InstructionsRaiseOnlyTheirOwnFaults :=
  fun _ _ _ h => (effect_of_exec h).fault_cases

/-- Settles O9: from 4095 on nothing is fetched, and what is fetched but not decoded faults after pc was advanced. -/
theorem fetchAndDecodeFaults : Obligations.FetchAndDecodeFaults := fun _ hr hq =>
  ⟨fun hpc => step_of_fetchWord_none ⟨hr, hq⟩ (fetchWord_of_pc_ge hpc),
    fun _ hw hd => step_of_decodeWord_none ⟨hr, hq⟩ hw hd⟩

/-- Settles O10: the frame is that of `raiseFault`, and the codes are the table's. -/
theorem faultEntryWritesFaultRunStopReq : Obligations.FaultEntryWritesFaultRunStopReq :=
  ⟨fun s c info => ⟨rfl, rfl, raiseFault_run s c info, raiseFault_stopReq s c info,
      ((raiseFault_writes s c info).mono (by decide)).onlyChanges⟩,
    by decide⟩

/-! ### The host's commands (R216 to R222) -/

/-- Settles O53: each command writes nothing that the invariants speak of, or writes it within their bounds. -/
theorem hostEventsKeepTheInvariants : Obligations.HostEventsKeepTheInvariants := fun _ _ _ => hostEvent_inv

/-! ### Keys (R225) -/

/-- An index inside the keypad names the key that takes the level. -/
theorem setKey_of_lt (s : State) {k : Nat} (hk : k < 16) (level : Bool) :
    setKey s k level = { s with key := s.key.set k level hk } := by
  simp [setKey, hk]

theorem setKey_of_outside (s : State) {index : Int} (h : index < 0 ∨ 16 ≤ index) (level : Bool) :
    setKey s index level = s :=
  dif_neg (by omega)

theorem setKey_key_self (s : State) {k : Nat} (hk : k < 16) (level : Bool) :
    (setKey s k level).key[k]? = some level := by
  rw [setKey_of_lt s hk]
  exact Vector.getElem?_set_self hk

theorem setKey_key_other (s : State) {j k : Nat} (hk : k < 16) (hjk : j ≠ k) (level : Bool) :
    (setKey s k level).key[j]? = s.key[j]? := by
  rw [setKey_of_lt s hk]
  exact Vector.getElem?_set_ne hk hjk.symm

/-- Settles O57: both commands set the level of a key, or do nothing where the index names none. -/
theorem pressAndReleaseSetOneKey : Obligations.PressAndReleaseSetOneKey := by
  refine fun s index => ⟨?inside, fun h => ⟨setKey_of_outside s h true, setKey_of_outside s h false⟩⟩
  case inside =>
    rintro k hk rfl
    exact ⟨setKey_key_self s hk true, setKey_key_self s hk false,
      fun j hj => ⟨setKey_key_other s hk hj true, setKey_key_other s hk hj false⟩,
      (setKey_writes s k true).onlyChanges, (setKey_writes s k false).onlyChanges⟩

/-! ### Start and stop (R218 to R220) -/

theorem run_writes (s : State) (r : RunState) : Writes [.run] s { s with run := r } :=
  ⟨fun p hp => by cases p <;> simp_all [Part.same, readV, readByte], fun _ => rfl⟩

theorem stopReq_writes (s : State) (b : Bool) : Writes [.stopReq] s { s with stopReq := b } :=
  ⟨fun p hp => by cases p <;> simp_all [Part.same, readV, readByte], fun _ => rfl⟩

section
variable {s : State}

theorem hostStart_of_idle (hr : s.run = .idle) : hostStart s = { s with run := .running } := by
  simp only [hostStart, hr]

theorem hostStart_of_not_idle (hr : s.run ≠ .idle) : hostStart s = s := by
  unfold hostStart
  split
  next h => exact absurd h hr
  next => rfl
  next => rfl

theorem hostStop_of_running (hr : s.run = .running) : hostStop s = { s with stopReq := true } := by
  simp only [hostStop, hr]

theorem hostStop_of_not_running (hr : s.run ≠ .running) : hostStop s = s := by
  unfold hostStop
  split
  next h => exact absurd h hr
  next => rfl
  next => rfl

end

/-- Settles O58: in each of the three states, what start does and what stop does. -/
theorem startAndStopMoveTheLifecycle : Obligations.StartAndStopMoveTheLifecycle := by
  refine fun s => ⟨fun hr => ?idle, fun hr => ?running, fun hr => ?faulted⟩
  case idle =>
    rw [hostStart_of_idle hr]
    exact ⟨rfl, (run_writes s .running).onlyChanges, hostStop_of_not_running (by simp [hr])⟩
  case running =>
    rw [hostStop_of_running hr]
    exact ⟨hostStart_of_not_idle (by simp [hr]), rfl, (stopReq_writes s true).onlyChanges⟩
  case faulted => exact ⟨hostStart_of_not_idle (by simp [hr]), hostStop_of_not_running (by simp [hr])⟩

end Sys2Proof.Proofs
